-- ==== Sys2Proof/Word.lean ====
section
/-! DEFINITION. The widths the spec gives its values (00_scope.md R7: every value is an unsigned integer of a stated
width). -/
namespace Sys2Proof

/-- A frame byte, and the width of the 8-bit register fields. -/
abbrev Byte := BitVec 8

/-- A 16-bit field: a device register word, an address, a length, the CRC. -/
abbrev Half := BitVec 16

/-- A word of the register bus (00_scope.md R5, `BUS_W` = 32), and a command word. -/
abbrev Word := BitVec 32

/-- A byte offset inside the 16 KiB window (20_memory.md R42: `0 <= off < 0x4000`). -/
abbrev Off := BitVec 14

end Sys2Proof
end

