-- ==== Sys2Proof/Config.lean ====
section
/-! DEFINITION. The parameters of 00_scope.md R5 that the spec fixes, and the free values. The OPEN parameters are
arguments: BASE_ADDR of `Machine.windowOffset` (log entry 9), CMD_LATENCY as the place of the engine's turn in the
agenda (log entries 1 and 10). -/
namespace Sys2Proof

/-- `FRAME_BUF_BYTES` (R5, D12): bytes in the frame buffer BUF. -/
def Config.frameBufBytes : Nat := 260

/-- `WORD_BUF_ENTRIES` (R5, D12): 16-bit entries in WORDS. -/
def Config.wordBufEntries : Nat := 128

/-- `READ_COUNT_MIN` (R5). -/
def Config.readCountMin : Nat := 1

/-- `READ_COUNT_MAX` (R5). -/
def Config.readCountMax : Nat := 125

/-- `MAX_WRITE_REGS` (R5, D13). -/
def Config.maxWriteRegs : Nat := 123

/-- `WIN_BYTES` (R5, D2): size of the block's address window. -/
def Config.winBytes : Nat := 0x4000

/-- `CRC_POLY` (R5): the reflected CRC polynomial. -/
def Config.crcPoly : Half := 0xA001#16

/-- `CRC_INIT_VALUE` (R5). -/
def Config.crcInitValue : Half := 0xFFFF#16

/-- `ID_VALUE` (R5, D4). -/
def Config.idValue : Word := 0x4D430001#32

/-- The value of the unwritten entry BUF[i] after the `r`-th hardware reset (R126, U1: any value, one draw per entry,
fixed until the entry is written, and the draws may differ from one reset to the next). A free value (log entry 3). -/
opaque Config.freeByte : (r i : Nat) → Byte

/-- The value of the unwritten entry WORDS[j] after the `r`-th hardware reset, likewise (R126, U1; log entry 3). -/
opaque Config.freeHalf : (r j : Nat) → Half

end Sys2Proof
end

