-- ==== Sys2Proof/Syntax.lean ====
section
/-! DEFINITION. The operations of the block: one constructor per row of spec/opcode_table.json (30_encoding.md R58, R59),
and the names by which decoding a bus write rejects it. -/
namespace Sys2Proof

/-- One operation of MBCODEC. The first nine are the command words of R58; their operands are named registers, so they
carry none (R61). -/
inductive Instr where
  /-- NOP, 0x00 (R79). -/
  | nop
  /-- CRC_INIT, 0x01 (R90). -/
  | crcInit
  /-- CRC_BUF, 0x02 (R91). -/
  | crcBuf
  /-- CRC_CHECK, 0x03 (R92). -/
  | crcCheck
  /-- CRC_APPEND, 0x04 (R93). -/
  | crcAppend
  /-- ENC_READ, 0x10 (R96). -/
  | encRead
  /-- ENC_WRITE, 0x11 (R97). -/
  | encWrite
  /-- DECODE, 0x20 (R99). -/
  | decode
  /-- SOFT_RESET, exactly 0x000000FF (R80). -/
  | softReset
  /-- ILLEGAL: the command word `w` matches no row of R58 (R59, R81). -/
  | illegal (w : Word)
  /-- A write of `v` to CRC_DATA (R89). -/
  | crcData (v : Word)
  /-- A write of `v` to STATUS (R78). -/
  | statusClear (v : Word)
  deriving DecidableEq, Repr

/-- Why a bus write is no operation of the opcode table. Safe: such a write is handled as a register or buffer access or
answered SLVERR (20_memory.md R44 to R46), never run as an operation. -/
inductive Reject where
  /-- The offset has nonzero bits 1:0 (R44). -/
  | misaligned
  /-- The offset is none of CMD, CRC_DATA and STATUS. -/
  | notAnOperation
  deriving DecidableEq, Repr

end Sys2Proof
end

