-- ==== Sys2Proof/WellFormed.lean ====
section
/-! DEFINITION. Well-formed operations: `illegal w` stands only for a word the opcode map of 30_encoding.md R58 does not
define; every value of every other operand is legal (R24, R78). -/
namespace Sys2Proof

/-- The opcodes of 30_encoding.md R58. -/
def definedOpcodes : List Byte :=
  [0x00#8, 0x01#8, 0x02#8, 0x03#8, 0x04#8, 0x10#8, 0x11#8, 0x20#8, 0xFF#8]

/-- A defined command word: RSVD = 0 and OPCODE in R58 (R57, R59). -/
def isCommandWord (w : Word) : Bool :=
  w.extractLsb' 8 24 == 0#24 && definedOpcodes.contains (w.extractLsb' 0 8)

/-- The check of R59: an illegal word is one the opcode map does not define. -/
def Instr.wf : Instr → Bool
  | .nop | .crcInit | .crcBuf | .crcCheck | .crcAppend | .encRead | .encWrite | .decode | .softReset => true
  | .illegal w => !isCommandWord w
  | .crcData _ | .statusClear _ => true

end Sys2Proof
end

