-- ==== Sys2Proof/Decode.lean ====
section
/-! DEFINITION. From a bus write (offset and data) to the operation it asks for, and back (30_encoding.md R57 to R59;
10_state.md R16 for the three offsets). -/
namespace Sys2Proof

/-- The offset of STATUS (10_state.md R16). -/
def statusOffset : Off := 0x008#14

/-- The offset of CMD (10_state.md R16). -/
def cmdOffset : Off := 0x00C#14

/-- The offset of CRC_DATA (10_state.md R16). -/
def crcDataOffset : Off := 0x018#14

/-- OPCODE, bits 7:0 of a command word (R57). -/
def opcodeField (w : Word) : Byte := w.extractLsb' 0 8

/-- RSVD, bits 31:8 of a command word (R57). -/
def rsvdField (w : Word) : BitVec 24 := w.extractLsb' 8 24

/-- The opcode map of R58. -/
def opcodeMap : List (Byte × Instr) :=
  [(0x00#8, .nop), (0x01#8, .crcInit), (0x02#8, .crcBuf), (0x03#8, .crcCheck), (0x04#8, .crcAppend),
   (0x10#8, .encRead), (0x11#8, .encWrite), (0x20#8, .decode), (0xFF#8, .softReset)]

/-- The operation a command word selects: RSVD must be 0 and OPCODE in R58, else the word is illegal (R59). -/
def decodeCommand (w : Word) : Instr :=
  if rsvdField w = 0#24 then
    match opcodeMap.lookup (opcodeField w) with
    | some i => i
    | none => .illegal w
  else .illegal w

/-- The operation a bus write of `v` at offset `off` asks for; a write that is none is rejected by name. -/
def decodeWrite (off : Off) (v : Word) : Except Reject Instr :=
  if off.extractLsb' 0 2 ≠ 0#2 then .error .misaligned
  else if off = cmdOffset then .ok (decodeCommand v)
  else if off = crcDataOffset then .ok (.crcData v)
  else if off = statusOffset then .ok (.statusClear v)
  else .error .notAnOperation

/-- The bus write of an operation: its offset and its data (R57, R58). -/
def encode : Instr → Off × Word
  | .nop => (cmdOffset, 0x00000000#32)
  | .crcInit => (cmdOffset, 0x00000001#32)
  | .crcBuf => (cmdOffset, 0x00000002#32)
  | .crcCheck => (cmdOffset, 0x00000003#32)
  | .crcAppend => (cmdOffset, 0x00000004#32)
  | .encRead => (cmdOffset, 0x00000010#32)
  | .encWrite => (cmdOffset, 0x00000011#32)
  | .decode => (cmdOffset, 0x00000020#32)
  | .softReset => (cmdOffset, 0x000000FF#32)
  | .illegal w => (cmdOffset, w)
  | .crcData v => (crcDataOffset, v)
  | .statusClear v => (statusOffset, v)

/-- The bus write that a word of spec/opcode_table.json stands for. A row of 32 bits holds the data alone, and the table
gives it no offset: it is read as a write to CMD. A longer number holds the offset in bits 45:32 (log entry 8). -/
def tableWrite (nbits w : Nat) : Off × Word :=
  if nbits ≤ 32 then (cmdOffset, BitVec.ofNat 32 w)
  else (BitVec.ofNat 14 (w >>> 32), BitVec.ofNat 32 w)

/-- The operation this decoder reads from a word numbered as spec/opcode_table.json numbers it. -/
def decodeTableWord (nbits w : Nat) : Option Instr :=
  match decodeWrite (tableWrite nbits w).1 (tableWrite nbits w).2 with
  | .ok i => some i
  | .error _ => none

end Sys2Proof
end

