-- ==== Sys2Proof/Machine/State.lean ====
section
/-! DEFINITION. The state of MBCODEC (10_state.md R13) as plain data, the bus accesses and turns that drive it, and the
state after reset (70_reset_and_hazards.md R124 to R126). -/
namespace Sys2Proof.Machine

/-- CTRL.MODE (10_state.md R18): 0 selects RTU framing, 1 selects MBAP framing. -/
inductive Framing where
  | rtu
  | mbap
  deriving DecidableEq, Repr

/-- The twenty named registers of 10_state.md R16. -/
inductive Reg where
  | id | ctrl | status | cmd | errcode | crc | crcData | unit | func | addr | count | txn | len | nwords
  | rspUnit | rspFunc | rspExc | rspAddr | rspQty | rspTxn
  deriving DecidableEq, Repr

/-- The access types of 10_state.md R16. -/
inductive AccessType where
  /-- Read and write. -/
  | rw
  /-- Read only: writes are ignored without error. -/
  | ro
  /-- Write only: reads return 0. -/
  | wo
  /-- Some bits read only, some write 1 to clear (STATUS). -/
  | roW1c
  deriving DecidableEq, Repr

/-- What a mapped offset names (10_state.md R16). -/
inductive Target where
  /-- A register. -/
  | reg (r : Reg)
  /-- BUF[i], `i < 260` (R37). -/
  | byte (i : Nat)
  /-- WORDS[j], `j < 128` (R38). -/
  | word (j : Nat)
  deriving DecidableEq, Repr

/-- The result codes of 60_exceptions.md R108. -/
inductive ResultCode where
  | ok | invalidArgument | shortFrame | checksumMismatch | exceptionResponse | unexpectedFunction | longFrame
  | malformed | txnMismatch | illegalCommand
  deriving DecidableEq, Repr

/-- The bus response (20_memory.md R42). -/
inductive Resp where
  | okay
  | slverr
  deriving DecidableEq, Repr

/-- What the host receives for one access (R42): a read returns a word and a response, a write a response. -/
inductive BusResponse where
  | read (r : Resp) (data : Word)
  | written (r : Resp)
  deriving DecidableEq, Repr

/-- The two bus primitives (R42). -/
inductive BusOp where
  | read
  | write (v : Word)
  deriving DecidableEq, Repr

/-- One host access as it reaches the block: the window offset, the width in bytes and the byte lanes (R42, R44). -/
structure Access where
  off   : Off
  size  : Nat
  lanes : BitVec 4
  op    : BusOp
  deriving DecidableEq, Repr

/-- Who takes a step (00_scope.md R12; 70_reset_and_hazards.md R124). -/
inductive Turn where
  /-- The host makes one bus access. -/
  | host (a : Access)
  /-- The command engine may take its step (40_command_control.md R77). -/
  | engine
  /-- The environment resets the block (R124). -/
  | hardReset
  deriving DecidableEq, Repr

/-- The stored fields of the registers of 10_state.md R16. ID is a constant; CMD and CRC_DATA store nothing (R20, R24). -/
structure Regs where
  /-- CTRL.MODE (R18). -/
  mode    : Framing
  /-- CTRL.IRQ_EN (R18). -/
  irqEn   : Bool
  /-- STATUS.BUSY (R19). -/
  busy    : Bool
  /-- STATUS.DONE (R19). -/
  done    : Bool
  /-- STATUS.ERR (R19). -/
  err     : Bool
  /-- STATUS.WERR (R19). -/
  werr    : Bool
  /-- ERRCODE (R21). -/
  errcode : Byte
  /-- CRC (R22). -/
  crc     : Half
  /-- UNIT (R25). -/
  unit    : Byte
  /-- FUNC (R26). -/
  func    : Byte
  /-- ADDR (R27). -/
  addr    : Half
  /-- COUNT (R28). -/
  count   : Half
  /-- TXN (R29). -/
  txn     : Half
  /-- LEN (R23). -/
  len     : Half
  /-- NWORDS (R30). -/
  nwords  : Byte
  /-- RSP_UNIT (R31). -/
  rspUnit : Byte
  /-- RSP_FUNC (R32). -/
  rspFunc : Byte
  /-- RSP_EXC (R33). -/
  rspExc  : Byte
  /-- RSP_ADDR (R34). -/
  rspAddr : Half
  /-- RSP_QTY (R35). -/
  rspQty  : Half
  /-- RSP_TXN (R36). -/
  rspTxn  : Half
  deriving DecidableEq, Repr

/-- The buffers: the entries written since the last hardware reset, by rising index. An index that is not listed is
unwritten (R126; log entries 3 and 14). -/
structure Memory where
  /-- BUF (R37). -/
  buf   : List Host.Cell
  /-- WORDS (R38). -/
  words : List (Nat × Half)
  deriving DecidableEq, Repr

/-- The state of the block (R13) and, last, three fields of the model's own. -/
structure State where
  /-- The registers (R16). -/
  regs       : Regs
  /-- PENDING, the command latch (R39). -/
  pending    : Option Word
  /-- BUF and WORDS (R37, R38). -/
  mem        : Memory
  /-- The model's own: how many hardware resets have happened, which selects the free values of the unwritten entries
  (R126; log entry 4). -/
  resetCount : Nat
  /-- The model's own: what the host received for its latest access (R42; log entry 5). -/
  response   : Option BusResponse
  /-- The model's own: the turns to come, oldest first (R52; log entry 1). -/
  agenda     : List Turn
  deriving DecidableEq, Repr

/-- Why a step stops with a fault. The spec gives the block none (60_exceptions.md R113: it does not trap). -/
inductive Fault where
  /-- Raised by the engine's turn when STATUS.BUSY = 1 and PENDING is none: 10_state.md R39 says there is no such state,
  and no run reaches one (log entry 12). Safe. -/
  | busyWithoutPending
  deriving DecidableEq, Repr

/-- Why an instruction has no meaning. -/
inductive Refusal where
  /-- Raised by an arm of `exec` whose instruction has no meaning in the model; no arm raises it now. Safe. -/
  | notModelled (mnemonic : String)
  deriving DecidableEq, Repr

/-- The outcome of a step of this machine. -/
abbrev Outcome := Host.Outcome State Fault Refusal

/-- The reset values of 70_reset_and_hazards.md R125. -/
def Regs.reset : Regs where
  mode    := .rtu
  irqEn   := false
  busy    := false
  done    := false
  err     := false
  werr    := false
  errcode := 0x00#8
  crc     := Config.crcInitValue
  unit    := 0x00#8
  func    := 0x00#8
  addr    := 0x0000#16
  count   := 0x0000#16
  txn     := 0x0000#16
  len     := 0x0000#16
  nwords  := 0x00#8
  rspUnit := 0x00#8
  rspFunc := 0x00#8
  rspExc  := 0x00#8
  rspAddr := 0x0000#16
  rspQty  := 0x0000#16
  rspTxn  := 0x0000#16

/-- The buffers after hardware reset: every entry unwritten (R126). -/
def Memory.unwritten : Memory where
  buf   := []
  words := []

/-- The block after hardware reset (R124, R125, R126), with nothing to come (R127; log entries 4, 5 and 7). -/
def State.reset : State where
  regs       := Regs.reset
  pending    := none
  mem        := Memory.unwritten
  resetCount := 0
  response   := none
  agenda     := []

end Sys2Proof.Machine
end

