-- ==== Sys2Proof/Machine/Ops.lean ====
section
/-! DEFINITION. The shared operations: bytes of 16-bit fields (00_scope.md R8, 30_encoding.md R62), the buffers
(10_state.md R37, R38; 70_reset_and_hazards.md R126), register commits, the two resets, and the completion of a command,
which is also how an error is recorded: the block takes no exception (60_exceptions.md R113). -/
namespace Sys2Proof.Machine

/-! ## 16-bit fields -/

/-- `hi8(v) = v[15:8]` (R62). -/
def hi8 (v : Half) : Byte := v.extractLsb' 8 8

/-- `lo8(v) = v[7:0]` (R62). -/
def lo8 (v : Half) : Byte := v.extractLsb' 0 8

/-- `be16(hi, lo)` (R8): high byte first. -/
def be16 (hi lo : Byte) : Half := hi ++ lo

/-- Register words as frame bytes, high byte first (R50, R62). -/
def wordBytes (ws : List Half) : List Byte := ws.flatMap fun w => [hi8 w, lo8 w]

/-! ## Sparse buffers -/

/-- The value listed at index `i`, `none` where the entry is unwritten. -/
def cellGet {α : Type} (i : Nat) : List (Nat × α) → Option α
  | [] => none
  | (j, y) :: rest => if i = j then some y else cellGet i rest

/-- The list with the value `x` at index `i`, kept in rising order. -/
def cellPut {α : Type} (i : Nat) (x : α) : List (Nat × α) → List (Nat × α)
  | [] => [(i, x)]
  | (j, y) :: rest =>
    if i < j then (i, x) :: (j, y) :: rest
    else if i = j then (i, x) :: rest
    else (j, y) :: cellPut i x rest

/-- The list with the values `xs` at the indices from `i` on. -/
def cellPutAll {α : Type} (i : Nat) : List α → List (Nat × α) → List (Nat × α)
  | [], cells => cells
  | x :: xs, cells => cellPutAll (i + 1) xs (cellPut i x cells)

/-- The canonical form: every index at least `low` and below `limit`, strictly rising. -/
def cellsWf {α : Type} (limit : Nat) : (low : Nat) → List (Nat × α) → Bool
  | _, [] => true
  | low, (j, _) :: rest => decide (low ≤ j) && decide (j < limit) && cellsWf limit (j + 1) rest

/-- Both buffers are in canonical form, inside their bounds (R37, R38). -/
def Memory.wf (m : Memory) : Bool :=
  cellsWf Config.frameBufBytes 0 m.buf && cellsWf Config.wordBufEntries 0 m.words

/-- What BUF[i] reads as: the byte written, else the entry's free value (R126, U1). -/
def State.bufByte (s : State) (i : Nat) : Byte :=
  match cellGet i s.mem.buf with
  | some b => b
  | none => Config.freeByte s.resetCount i

/-- What WORDS[j] reads as: the word written, else the entry's free value (R126, U1). -/
def State.wordAt (s : State) (j : Nat) : Half :=
  match cellGet j s.mem.words with
  | some w => w
  | none => Config.freeHalf s.resetCount j

/-- `BUF[a..b)`, empty when `a >= b` (R8). -/
def State.bufSlice (s : State) (a b : Nat) : List Byte :=
  (List.range' a (b - a)).map s.bufByte

/-- `WORDS[0..n)` (R61). -/
def State.wordsUpTo (s : State) (n : Nat) : List Half :=
  (List.range n).map s.wordAt

/-- `BUF[i] <- bs[0], BUF[i+1] <- bs[1], ...`. -/
def State.writeBuf (i : Nat) (bs : List Byte) (s : State) : State :=
  { s with mem := { s.mem with buf := cellPutAll i bs s.mem.buf } }

/-- `WORDS[j] <- ws[0], WORDS[j+1] <- ws[1], ...`. -/
def State.writeWords (j : Nat) (ws : List Half) (s : State) : State :=
  { s with mem := { s.mem with words := cellPutAll j ws s.mem.words } }

/-! ## Register commits -/

/-- `CRC <- c` (R22). -/
def State.setCrc (c : Half) (s : State) : State :=
  { s with regs := { s.regs with crc := c } }

/-- `LEN <- n`, narrowed to the field (R8, R23). -/
def State.setLen (n : Nat) (s : State) : State :=
  { s with regs := { s.regs with len := BitVec.ofNat 16 n } }

/-! ## Completion of a command -/

/-- The number of a result code (60_exceptions.md R108). -/
def ResultCode.toByte : ResultCode → Byte
  | .ok => 0
  | .invalidArgument => 1
  | .shortFrame => 2
  | .checksumMismatch => 3
  | .exceptionResponse => 4
  | .unexpectedFunction => 5
  | .longFrame => 6
  | .malformed => 7
  | .txnMismatch => 8
  | .illegalCommand => 9

/-- The registers once a command has completed with `code`: ERRCODE, DONE, ERR and BUSY (40_command_control.md R77). -/
def Regs.finish (code : ResultCode) (r : Regs) : Regs :=
  { r with errcode := code.toByte, done := true, err := code != .ok, busy := false }

/-- The completion step (R77) of a command whose body answered `code` and left its committed writes in `s`. With a code
other than `ok` this is how the block takes an error: it is recorded, and no control moves (60_exceptions.md R113). -/
def State.complete (code : ResultCode) (s : State) : State :=
  { s with regs := s.regs.finish code, pending := none }

/-- The completion step as an outcome, from the body's code and committed state. -/
def finished (run : ResultCode × State) : Outcome :=
  .next (run.2.complete run.1)

/-! ## Resets -/

/-- SOFT_RESET (40_command_control.md R80): every register at its reset value, PENDING none, BUF and WORDS kept. -/
def State.softReset (s : State) : State :=
  { s with regs := Regs.reset, pending := none }

/-- Hardware reset (70_reset_and_hazards.md R124, R126): the reset values, PENDING none, every buffer entry unwritten and
its free value drawn anew. The host's latest response is gone with it (log entry 5). -/
def State.hardReset (s : State) : State :=
  { s with regs := Regs.reset, pending := none, mem := Memory.unwritten,
           resetCount := s.resetCount + 1, response := none }

/-! ## The bus response -/

/-- The host receives `r` for its access (20_memory.md R42). -/
def State.respond (r : BusResponse) (s : State) : State :=
  { s with response := some r }

end Sys2Proof.Machine
end

