-- ==== Sys2Proof/Machine/Flags.lean ====
section
/-! DEFINITION. The flags STATUS.BUSY, DONE, ERR and WERR (10_state.md R19, R41), what sets and clears them, and the
interrupt output (R40). Completion sets DONE and ERR in `Regs.finish` (40_command_control.md R77). -/
namespace Sys2Proof.Machine

/-- STATUS as the bus reads it: BUSY[0], DONE[1], ERR[2], WERR[3], the rest 0 (R19). -/
def Regs.statusWord (r : Regs) : Word :=
  (BitVec.ofBool r.werr ++ BitVec.ofBool r.err ++ BitVec.ofBool r.done ++ BitVec.ofBool r.busy).setWidth 32

/-- CTRL as the bus reads it: MODE[0], IRQ_EN[1], the rest 0 (R18). -/
def Regs.ctrlWord (r : Regs) : Word :=
  (BitVec.ofBool r.irqEn ++ BitVec.ofBool (r.mode == .mbap)).setWidth 32

/-- CTRL.MODE of a written word (R18). -/
def framingOf (v : Word) : Framing :=
  if v.getLsbD 0 then .mbap else .rtu

/-- The W1C write to STATUS (40_command_control.md R78): bits 1, 2 and 3 clear DONE, ERR and WERR; no bit sets one and
BUSY is not written. -/
def Regs.clearStatus (v : Word) (r : Regs) : Regs :=
  { r with done := r.done && !v.getLsbD 1, err := r.err && !v.getLsbD 2, werr := r.werr && !v.getLsbD 3 }

/-- A write dropped because STATUS.BUSY is 1 sets WERR and does nothing else (R75, R76). -/
def State.dropWrite (s : State) : State :=
  { s with regs := { s.regs with werr := true } }

/-- Acceptance of the command word `w` (R74). -/
def State.accept (w : Word) (s : State) : State :=
  { s with regs := { s.regs with busy := true, done := false, err := false }, pending := some w }

/-- `irq = CTRL.IRQ_EN & STATUS.DONE` (R40, 60_exceptions.md R111). -/
def State.irq (s : State) : Bool := s.regs.irqEn && s.regs.done

end Sys2Proof.Machine
end

