-- ==== Sys2Proof/Machine/Control.lean ====
section
/-! DEFINITION. The control operations: NOP, SOFT_RESET, ILLEGAL and the STATUS clear (40_command_control.md R78 to R81). -/
namespace Sys2Proof.Machine

/-- NOP (R79): no writes, code 0. -/
def execNop (s : State) : Outcome := finished (.ok, s)

/-- SOFT_RESET (R80): at once, in any state; a pending command is abandoned. -/
def execSoftReset (s : State) : Outcome := .next s.softReset

/-- An illegal command word (R59, R81): code 9 and no other write, whatever the word. -/
def execIllegal (_w : Word) (s : State) : Outcome := finished (.illegalCommand, s)

/-- A write of `v` to STATUS (R78): at once, in any state. -/
def execStatusClear (v : Word) (s : State) : Outcome :=
  .next { s with regs := s.regs.clearStatus v }

end Sys2Proof.Machine
end

