-- ==== Sys2Proof/Machine/Frames.lean ====
section
/-! DEFINITION. The CRC function (41_crc.md R85, R86) and the frame formats (30_encoding.md R63 to R70). -/
namespace Sys2Proof.Machine

/-! ## The CRC -/

/-- One of the eight shifts of `crc_update` (R85). -/
def crcShift (c : Half) : Half :=
  if c.getLsbD 0 then (c >>> 1) ^^^ Config.crcPoly else c >>> 1

/-- `crc_update(c, b)` (R85). -/
def crcUpdate (c : Half) (b : Byte) : Half :=
  Nat.repeat crcShift 8 (c ^^^ b.setWidth 16)

/-- `crc16(seq)` (R86). -/
def crc16 (bytes : List Byte) : Half :=
  bytes.foldl crcUpdate Config.crcInitValue

/-! ## Framing -/

/-- `RTU(P)` (R63): the body, then its CRC, low byte first. -/
def rtuFrame (p : List Byte) : List Byte :=
  p ++ [lo8 (crc16 p), hi8 (crc16 p)]

/-- `MBAP(t, P)` (R64): transaction id, protocol id 0, length of the body, then the body. -/
def mbapFrame (t : Half) (p : List Byte) : List Byte :=
  [hi8 t, lo8 t, 0x00#8, 0x00#8, hi8 (BitVec.ofNat 16 p.length), lo8 (BitVec.ofNat 16 p.length)] ++ p

/-- The frame of a body in a framing mode (R60). -/
def frameOf (m : Framing) (t : Half) (p : List Byte) : List Byte :=
  match m with
  | .rtu => rtuFrame p
  | .mbap => mbapFrame t p

/-! ## PDU bodies (R65) -/

/-- The read request (R66). -/
def readRequest (u f : Byte) (a n : Half) : List Byte :=
  [u, f, hi8 a, lo8 a, hi8 n, lo8 n]

/-- The write request of the values `vs` (R67). -/
def writeRequest (u f : Byte) (a : Half) (vs : List Half) : List Byte :=
  [u, f, hi8 a, lo8 a, hi8 (BitVec.ofNat 16 vs.length), lo8 (BitVec.ofNat 16 vs.length),
   BitVec.ofNat 8 (2 * vs.length)] ++ wordBytes vs

/-- The read response of the words `ws` (R68). -/
def readReply (u f : Byte) (ws : List Half) : List Byte :=
  [u, f, BitVec.ofNat 8 (2 * ws.length)] ++ wordBytes ws

/-- The write response, echo form (R69). -/
def writeReply (u f : Byte) (a q : Half) : List Byte :=
  [u, f, hi8 a, lo8 a, hi8 q, lo8 q]

/-- The exception response to the function code `f` (R70). -/
def exceptionReply (u f e : Byte) : List Byte :=
  [u, 0x80#8 ||| f, e]

end Sys2Proof.Machine
end

