-- ==== Sys2Proof/Machine/Crc.lean ====
section
/-! DEFINITION. The CRC operations (41_crc.md R89 to R93). None reads CTRL.MODE (R88). -/
namespace Sys2Proof.Machine

/-- A write of `v` to CRC_DATA (R89): the accumulator takes in the byte `v[7:0]` at once; dropped with WERR while busy
(40_command_control.md R76). -/
def execCrcData (v : Word) (s : State) : Outcome :=
  .next (if s.regs.busy then s.dropWrite else s.setCrc (crcUpdate s.regs.crc (v.setWidth 8)))

/-- CRC_INIT (R90). -/
def execCrcInit (s : State) : Outcome := finished (.ok, s.setCrc Config.crcInitValue)

/-- The body of CRC_BUF (R91). -/
def runCrcBuf (s : State) : ResultCode × State :=
  let l := s.regs.len.toNat
  if l > Config.frameBufBytes then (.invalidArgument, s)
  else (.ok, s.setCrc (crc16 (s.bufSlice 0 l)))

/-- CRC_BUF (R91). -/
def execCrcBuf (s : State) : Outcome := finished (runCrcBuf s)

/-- The CRC stored in the last two of `l` frame bytes, low byte first (R63, R92, C3). -/
def State.storedCrc (s : State) (l : Nat) : Half :=
  be16 (s.bufByte (l - 1)) (s.bufByte (l - 2))

/-- The body of CRC_CHECK (R92). -/
def runCrcCheck (s : State) : ResultCode × State :=
  let l := s.regs.len.toNat
  if l > Config.frameBufBytes then (.invalidArgument, s)
  else if l < 2 then (.shortFrame, s)
  else
    let c := crc16 (s.bufSlice 0 (l - 2))
    if c ≠ s.storedCrc l then (.checksumMismatch, s.setCrc c)
    else (.ok, s.setCrc c)

/-- CRC_CHECK (R92). -/
def execCrcCheck (s : State) : Outcome := finished (runCrcCheck s)

/-- The body of CRC_APPEND (R93). -/
def runCrcAppend (s : State) : ResultCode × State :=
  let l := s.regs.len.toNat
  if l > Config.frameBufBytes - 2 then (.invalidArgument, s)
  else
    let c := crc16 (s.bufSlice 0 l)
    (.ok, ((s.writeBuf l [lo8 c, hi8 c]).setLen (l + 2)).setCrc c)

/-- CRC_APPEND (R93). -/
def execCrcAppend (s : State) : Outcome := finished (runCrcAppend s)

end Sys2Proof.Machine
end

