-- ==== Sys2Proof/Machine/Decoder.lean ====
section
/-! DEFINITION. DECODE (43_decode.md R99 to R106): the checks S1 to S7 in the order written, the first that fails ending
the command, then the commit S8. -/
namespace Sys2Proof.Machine

/-- What stage S2 sets: the offset `o` of unit_id in BUF, the length `b` of the PDU body, the transaction id `t`. -/
structure Framed where
  o : Nat
  b : Nat
  t : Half
  deriving DecidableEq, Repr

/-- What stages S6 and S7 set: address, quantity, where the words start in BUF and how many there are. -/
structure Layout where
  addr  : Half
  qty   : Half
  start : Nat
  n     : Nat
  deriving DecidableEq, Repr

/-- S2 in RTU mode, for `l` frame bytes (R100). -/
def State.framedRtu (s : State) (l : Nat) : Except ResultCode Framed :=
  if l < 4 then .error .shortFrame
  else if crc16 (s.bufSlice 0 (l - 2)) ≠ s.storedCrc l then .error .checksumMismatch
  else .ok ⟨0, l - 2, 0#16⟩

/-- A 16-bit field of the frame, high byte first (R62). -/
def State.field16 (s : State) (i : Nat) : Half := be16 (s.bufByte i) (s.bufByte (i + 1))

/-- S2 in MBAP mode, for `l` frame bytes (R101). -/
def State.framedMbap (s : State) (l : Nat) : Except ResultCode Framed :=
  if l < 8 then .error .shortFrame
  else if s.field16 2 ≠ 0#16 then .error .malformed
  else if 6 + (s.field16 4).toNat > l then .error .shortFrame
  else if 6 + (s.field16 4).toNat < l then .error .longFrame
  else if s.field16 0 ≠ s.regs.txn then .error .txnMismatch
  else .ok ⟨6, l - 6, s.field16 0⟩

/-- S1 and S2 (R99). -/
def State.framed (s : State) : Except ResultCode Framed :=
  let l := s.regs.len.toNat
  if l > Config.frameBufBytes then .error .invalidArgument
  else match s.regs.mode with
    | .rtu => s.framedRtu l
    | .mbap => s.framedMbap l

/-- S6, the write layout (R104): the echo form when `b = 6`, else the request-echo form. -/
def State.writeLayout (s : State) (o b : Nat) : Except ResultCode Layout :=
  let a := s.field16 (o + 2)
  let q := s.field16 (o + 4)
  let bc := (s.bufByte (o + 6)).toNat
  if b < 6 then .error .shortFrame
  else if b = 6 then .ok ⟨a, q, o + 7, 0⟩
  else if b < 7 + bc then .error .shortFrame
  else if b > 7 + bc then .error .longFrame
  else if bc % 2 = 1 then .error .malformed
  else if bc / 2 ≠ q.toNat then .error .malformed
  else .ok ⟨a, q, o + 7, bc / 2⟩

/-- S7, the read layout (R105). -/
def State.readLayout (s : State) (o b : Nat) : Except ResultCode Layout :=
  let bc := (s.bufByte (o + 2)).toNat
  if b < 3 then .error .shortFrame
  else if b < 3 + bc then .error .shortFrame
  else if b > 3 + bc then .error .longFrame
  else if bc % 2 = 1 then .error .malformed
  else .ok ⟨0#16, 0#16, o + 3, bc / 2⟩

/-- `RSP_UNIT <- u, RSP_FUNC <- f` (R31, R32). -/
def State.setReplyHead (u f : Byte) (s : State) : State :=
  { s with regs := { s.regs with rspUnit := u, rspFunc := f } }

/-- `RSP_EXC <- e` (R33). -/
def State.setReplyExc (e : Byte) (s : State) : State :=
  { s with regs := { s.regs with rspExc := e } }

/-- The words of the reply, `be16(BUF[start+2j], BUF[start+2j+1])` for `0 <= j < n` (S8). -/
def State.replyWords (s : State) (y : Layout) : List Half :=
  (List.range y.n).map fun j => s.field16 (y.start + 2 * j)

/-- The success commit S8 (R106). -/
def State.commitReply (u f : Byte) (t : Half) (y : Layout) (s : State) : State :=
  let s' := s.writeWords 0 (s.replyWords y)
  { s' with regs := { s.regs with
      rspUnit := u, rspFunc := f, rspExc := 0#8, rspAddr := y.addr, rspQty := y.qty, rspTxn := t,
      nwords := BitVec.ofNat 8 y.n } }

/-- Stages S3 to S8, once S2 has set `x` (R99, R102 to R106). -/
def State.decodeBody (x : Framed) (s : State) : ResultCode × State :=
  let u := s.bufByte x.o
  let f := s.bufByte (x.o + 1)
  if f.getLsbD 7 then
    if x.b < 3 then (.shortFrame, s)
    else if x.b > 3 then (.longFrame, s)
    else (.exceptionResponse, (s.setReplyHead u f).setReplyExc (s.bufByte (x.o + 2)))
  else if f ≠ s.regs.func then (.unexpectedFunction, s.setReplyHead u f)
  else
    match if f = 0x10#8 then s.writeLayout x.o x.b else s.readLayout x.o x.b with
    | .error code => (code, s)
    | .ok y => (.ok, s.commitReply u f x.t y)

/-- The body of DECODE (R99). -/
def runDecode (s : State) : ResultCode × State :=
  match s.framed with
  | .error code => (code, s)
  | .ok x => s.decodeBody x

/-- DECODE (R99). -/
def execDecode (s : State) : Outcome := finished (runDecode s)

end Sys2Proof.Machine
end

