-- ==== Sys2Proof/Machine/Encoders.lean ====
section
/-! DEFINITION. The request encoders (42_encode.md R94 to R97). -/
namespace Sys2Proof.Machine

/-- `Emit(P)` (R94): the frame into BUF from index 0, LEN, and in RTU mode CRC. -/
def State.emit (p : List Byte) (s : State) : State :=
  match s.regs.mode with
  | .rtu => ((s.writeBuf 0 (rtuFrame p)).setLen (p.length + 2)).setCrc (crc16 p)
  | .mbap => (s.writeBuf 0 (mbapFrame s.regs.txn p)).setLen (6 + p.length)

/-- The body of ENC_READ (R96). -/
def runEncRead (s : State) : ResultCode × State :=
  let n := s.regs.count.toNat
  if n < Config.readCountMin ∨ n > Config.readCountMax then (.invalidArgument, s)
  else (.ok, s.emit (readRequest s.regs.unit s.regs.func s.regs.addr s.regs.count))

/-- ENC_READ (R96). -/
def execEncRead (s : State) : Outcome := finished (runEncRead s)

/-- The body of ENC_WRITE (R97). -/
def runEncWrite (s : State) : ResultCode × State :=
  let n := s.regs.nwords.toNat
  if n < 1 ∨ n > Config.maxWriteRegs then (.invalidArgument, s)
  else (.ok, s.emit (writeRequest s.regs.unit s.regs.func s.regs.addr (s.wordsUpTo n)))

/-- ENC_WRITE (R97). -/
def execEncWrite (s : State) : Outcome := finished (runEncWrite s)

end Sys2Proof.Machine
end

