-- ==== Sys2Proof/Machine/Dispatch.lean ====
section
/-! DEFINITION. One arm per operation. For a command word the arm is the command's completion step
(40_command_control.md R77); for SOFT_RESET, CRC_DATA and the STATUS clear it is the effect of the bus write itself
(R78, R80; 41_crc.md R89). -/
namespace Sys2Proof.Machine

def exec (i : Instr) (s : State) : Host.Outcome State Fault Refusal :=
  match i with
  | .nop => Sys2Proof.Machine.execNop s
  | .crcInit => Sys2Proof.Machine.execCrcInit s
  | .crcBuf => Sys2Proof.Machine.execCrcBuf s
  | .crcCheck => Sys2Proof.Machine.execCrcCheck s
  | .crcAppend => Sys2Proof.Machine.execCrcAppend s
  | .encRead => Sys2Proof.Machine.execEncRead s
  | .encWrite => Sys2Proof.Machine.execEncWrite s
  | .decode => Sys2Proof.Machine.execDecode s
  | .softReset => Sys2Proof.Machine.execSoftReset s
  | .illegal w => Sys2Proof.Machine.execIllegal w s
  | .crcData v => Sys2Proof.Machine.execCrcData v s
  | .statusClear v => Sys2Proof.Machine.execStatusClear v s

end Sys2Proof.Machine
end

