-- ==== Sys2Proof/Machine/Operands.lean ====
section
/-! DEFINITION. The operands of bus accesses: the address map (10_state.md R16, 20_memory.md R43 to R45), what a read of
each target returns and what a write of each stores (R46). -/
namespace Sys2Proof.Machine

/-- The registers in the order of their offsets (R16). -/
def Reg.all : List Reg :=
  [.id, .ctrl, .status, .cmd, .errcode, .crc, .crcData, .unit, .func, .addr] ++
  [.count, .txn, .len, .nwords, .rspUnit, .rspFunc, .rspExc, .rspAddr, .rspQty, .rspTxn]

/-- The offset of a register (R16). -/
def Reg.offset : Reg → Off
  | .id => 0x000#14
  | .ctrl => 0x004#14
  | .status => statusOffset
  | .cmd => cmdOffset
  | .errcode => 0x010#14
  | .crc => 0x014#14
  | .crcData => crcDataOffset
  | .unit => 0x01C#14
  | .func => 0x020#14
  | .addr => 0x024#14
  | .count => 0x028#14
  | .txn => 0x02C#14
  | .len => 0x030#14
  | .nwords => 0x034#14
  | .rspUnit => 0x038#14
  | .rspFunc => 0x03C#14
  | .rspExc => 0x040#14
  | .rspAddr => 0x044#14
  | .rspQty => 0x048#14
  | .rspTxn => 0x04C#14

/-- The access type of a register (R16). -/
def Reg.access : Reg → AccessType
  | .id | .errcode | .rspUnit | .rspFunc | .rspExc | .rspAddr | .rspQty | .rspTxn => .ro
  | .ctrl | .crc | .unit | .func | .addr | .count | .txn | .len | .nwords => .rw
  | .cmd | .crcData => .wo
  | .status => .roW1c

/-- The offset of a target: a register's, `0x1000 + 4*i` of BUF[i], `0x2000 + 4*j` of WORDS[j] (R16, R43). DESIGN CHOICE,
log entry 19: for an `i` or `j` that puts the sum past the window (`i >= 3072`, `j >= 2048`), of which 30_encoding.md R72 says
nothing, the offset is the low 14 bits of the sum. No access of the block reaches that case: the address map names only
`i < 260` and `j < 128`. -/
def Target.offset : Target → Off
  | .reg r => r.offset
  | .byte i => BitVec.ofNat 14 (0x1000 + 4 * i)
  | .word j => BitVec.ofNat 14 (0x2000 + 4 * j)

/-- What a word-aligned offset names; `none` is unmapped (R45) or misaligned (R44). -/
def targetOf (off : Off) : Option Target :=
  if off.toNat % 4 ≠ 0 then none
  else if off.toNat < 0x1000 then (Reg.all.find? fun r => r.offset == off).map .reg
  else if off.toNat < 0x2000 then
    if (off.toNat - 0x1000) / 4 < Config.frameBufBytes then some (.byte ((off.toNat - 0x1000) / 4)) else none
  else if (off.toNat - 0x2000) / 4 < Config.wordBufEntries then some (.word ((off.toNat - 0x2000) / 4)) else none

/-- The window offset of a platform address, for the platform's BASE_ADDR (R5, R51); `none` outside the window, where an
access does not reach the block (R42; log entry 9). -/
def windowOffset (base addr : Nat) : Option Off :=
  if base ≤ addr ∧ addr < base + Config.winBytes then some (BitVec.ofNat 14 (addr - base)) else none

/-- The only legal access: 32 bits wide, `off[1:0] = 0`, all four byte lanes (R44). -/
def Access.legal (a : Access) : Bool :=
  a.size == 4 && a.off.extractLsb' 0 2 == 0#2 && a.lanes == 0xF#4

/-- `MemRead(off, 4)` (R8, R42). -/
def Access.memRead (off : Off) : Access := ⟨off, 4, 0xF#4, .read⟩

/-- `MemWrite(off, 4, v)` (R8, R42). -/
def Access.memWrite (off : Off) (v : Word) : Access := ⟨off, 4, 0xF#4, .write v⟩

/-- What a read of a register returns: its field in the low bits, every reserved bit 0; 0 for a write-only one (R16, R46). -/
def Regs.read (r : Regs) : Reg → Word
  | .id => Config.idValue
  | .ctrl => r.ctrlWord
  | .status => r.statusWord
  | .cmd => 0#32
  | .errcode => r.errcode.setWidth 32
  | .crc => r.crc.setWidth 32
  | .crcData => 0#32
  | .unit => r.unit.setWidth 32
  | .func => r.func.setWidth 32
  | .addr => r.addr.setWidth 32
  | .count => r.count.setWidth 32
  | .txn => r.txn.setWidth 32
  | .len => r.len.setWidth 32
  | .nwords => r.nwords.setWidth 32
  | .rspUnit => r.rspUnit.setWidth 32
  | .rspFunc => r.rspFunc.setWidth 32
  | .rspExc => r.rspExc.setWidth 32
  | .rspAddr => r.rspAddr.setWidth 32
  | .rspQty => r.rspQty.setWidth 32
  | .rspTxn => r.rspTxn.setWidth 32

/-- What a read of a target returns (R46). -/
def State.readTarget (s : State) : Target → Word
  | .reg r => s.regs.read r
  | .byte i => (s.bufByte i).setWidth 32
  | .word j => (s.wordAt j).setWidth 32

/-- A write of `v` to a register stores the field bits of an RW register and ignores the reserved bits; any other register
is not stored to by the bus (R16, R46). -/
def Regs.store (v : Word) (r : Regs) : Reg → Regs
  | .ctrl => { r with mode := framingOf v, irqEn := v.getLsbD 1 }
  | .crc => { r with crc := v.setWidth 16 }
  | .unit => { r with unit := v.setWidth 8 }
  | .func => { r with func := v.setWidth 8 }
  | .addr => { r with addr := v.setWidth 16 }
  | .count => { r with count := v.setWidth 16 }
  | .txn => { r with txn := v.setWidth 16 }
  | .len => { r with len := v.setWidth 16 }
  | .nwords => { r with nwords := v.setWidth 8 }
  | .id | .status | .cmd | .errcode | .crcData => r
  | .rspUnit | .rspFunc | .rspExc | .rspAddr | .rspQty | .rspTxn => r

/-- Whether a bus write to a target is a store, dropped while STATUS.BUSY = 1 (R76): RW registers, BUF and WORDS. -/
def Target.storable : Target → Bool
  | .reg r => r.access == .rw
  | .byte _ => true
  | .word _ => true

/-- The store itself, with STATUS.BUSY = 0 (R46). -/
def State.storeTarget (v : Word) (s : State) : Target → State
  | .reg r => { s with regs := s.regs.store v r }
  | .byte i => s.writeBuf i [v.setWidth 8]
  | .word j => s.writeWords j [v.setWidth 16]

/-- A bus write to a target that is no operation: stored, dropped with WERR while busy, or ignored where the register is
read only (R46, R76). -/
def State.busStore (t : Target) (v : Word) (s : State) : State :=
  if t.storable then (if s.regs.busy then s.dropWrite else s.storeTarget v t) else s

/-- A CMD write of a word that is not SOFT_RESET: accepted when idle (40_command_control.md R74), dropped with WERR while
busy (R75). -/
def State.issue (w : Word) (s : State) : State :=
  if s.regs.busy then s.dropWrite else s.accept w

end Sys2Proof.Machine
end

