-- ==== Sys2Proof/Machine/Turns.lean ====
section
/-! DEFINITION. What each agent's step does: the host's bus access (20_memory.md R42 to R46), the engine's completion
(40_command_control.md R77), and how the operation that a step is to run next is placed. -/
namespace Sys2Proof.Machine

/-- Whether an operation takes effect at its bus write, with no BUSY window (R78, R80, 41_crc.md R89); every other is a
command, latched in PENDING and run at its completion (R74, R77). -/
def runsAtOnce : Instr → Bool
  | .softReset | .crcData _ | .statusClear _ => true
  | .nop | .crcInit | .crcBuf | .crcCheck | .crcAppend | .encRead | .encWrite | .decode | .illegal _ => false

/-- The engine's turn (R77): enabled exactly when STATUS.BUSY = 1, it completes the command in PENDING; otherwise nothing
happens. -/
def engineTurn (s : State) : Outcome :=
  if s.regs.busy then
    match s.pending with
    | some w => exec (decodeCommand w) s
    | none => .fault .busyWithoutPending
  else .next s

/-- A legal write of `v` to the mapped offset `off`, which names `t` (R46). -/
def hostWrite (off : Off) (t : Target) (v : Word) (s : State) : Outcome :=
  match decodeWrite off v with
  | .ok i => if runsAtOnce i then exec i s else .next (s.issue v)
  | .error _ => .next (s.busStore t v)

/-- The response of an access that is illegal or unmapped: SLVERR, read data 0 (R44, R45). -/
def busError : BusOp → BusResponse
  | .read => .read .slverr 0#32
  | .write _ => .written .slverr

/-- One host access (R42 to R46): it is answered, and a legal write to a mapped offset has its effect. -/
def hostTurn (a : Access) (s : State) : Outcome :=
  match if a.legal then targetOf a.off else none with
  | none => .next (s.respond (busError a.op))
  | some t =>
    match a.op with
    | .read => .next (s.respond (.read .okay (s.readTarget t)))
    | .write v => hostWrite a.off t v (s.respond (.written .okay))

/-- One turn of the agenda. With nothing to come the engine alone can move (R12, R83; log entry 2). -/
def takeTurn (s : State) : Outcome :=
  match s.agenda with
  | [] => engineTurn s
  | .host a :: rest => hostTurn a { s with agenda := rest }
  | .engine :: rest => engineTurn { s with agenda := rest }
  | .hardReset :: rest => .next { s with agenda := rest }.hardReset

/-- `s` with an operation placed so that the next step runs it: a command as an accepted one (R74) whose completion is
next, any other as the host's next bus write (log entry 6). -/
def State.placeWrite (off : Off) (v : Word) (s : State) : State :=
  match decodeWrite off v with
  | .ok i =>
    if runsAtOnce i then { s with agenda := .host (.memWrite off v) :: s.agenda }
    else { s.accept v with agenda := .engine :: s.agenda }
  | .error _ => { s with agenda := .host (.memWrite off v) :: s.agenda }

end Sys2Proof.Machine
end

