-- ==== Sys2Proof/Machine/Step.lean ====
section
/-! DEFINITION. The step of the machine, and how one operation is placed for it (log entries 6 to 8). -/
namespace Sys2Proof.Machine

/-- One step: the next turn of the agenda (20_memory.md R52: one totally ordered history). -/
def step : State → Host.Outcome State Fault Refusal := takeTurn

/-- `s` with the operation of a table word placed so that the very next step runs it. -/
def State.withFetchWord (s : State) (nbits w : Nat) : State :=
  s.placeWrite (tableWrite nbits w).1 (tableWrite nbits w).2

end Sys2Proof.Machine
end

