-- ==== Sys2Proof/Machine/HostProgram.lean ====
section
/-! DEFINITION. Host programs (30_encoding.md R72, R73) and a host that runs one beside the block. Branches, labels and
variables are the host's own and no part of MBCODEC (R72), so none of this is in `State` (log entry 17). -/
namespace Sys2Proof.Machine

/-- One line of a host program (R72). Labels and variables are numbered; offsets are numbers (`Target.offset` gives those of
the names). -/
inductive HostLine where
  /-- `WR <off>, <imm>`. -/
  | wr (off : Off) (imm : Word)
  /-- `RD <off> -> <name>`. -/
  | rd (off : Off) (name : Nat)
  /-- `<label>:`. -/
  | label (l : Nat)
  /-- `BNZ <name>, <mask>, <label>`. -/
  | bnz (name : Nat) (mask : Word) (l : Nat)
  /-- `BZ <name>, <mask>, <label>`. -/
  | bz (name : Nat) (mask : Word) (l : Nat)
  deriving DecidableEq, Repr

/-- The bus transaction of a line; a label or a branch has none (R72). -/
def HostLine.access : HostLine → Option Access
  | .wr off imm => some (.memWrite off imm)
  | .rd off _ => some (.memRead off)
  | .label _ | .bnz _ _ _ | .bz _ _ _ => none

/-- The pseudo-instructions of R73; `WAIT` and `RUN` name the fresh label and the variable they use. -/
inductive HostPseudo where
  /-- `CMD <mnemonic>`. -/
  | cmd (i : Instr)
  /-- `WAIT`. -/
  | wait (l name : Nat)
  /-- `WRB <i>, b0, ..., bk`. -/
  | wrb (i : Nat) (bs : List Byte)
  /-- `WRW <j>, w0, ..., wk`. -/
  | wrw (j : Nat) (ws : List Half)
  /-- `CRCB b0, ..., bk`. -/
  | crcb (bs : List Byte)
  /-- `CLR`. -/
  | clr
  /-- `RUN <mnemonic>`. -/
  | run (i : Instr) (l name : Nat)
  deriving DecidableEq, Repr

/-- `WAIT`: a label, a read of STATUS, a branch back while BUSY (R73). -/
def waitLines (l name : Nat) : List HostLine :=
  [.label l, .rd statusOffset name, .bnz name 0x1#32 l]

/-- The expansions of R73. DESIGN CHOICE where R73 gives none: an index of WRB or WRW past the window has the offset of log
entry 19; CMD or RUN of an operation with no command word in R58 (CRC_DATA, the STATUS clear, ILLEGAL) writes the operation's
data word to CMD, and WRB, WRW or CRCB of no value has no line (log entry 21). -/
def HostPseudo.expand : HostPseudo → List HostLine
  | .cmd i => [.wr cmdOffset (encode i).2]
  | .wait l name => waitLines l name
  | .wrb i bs => bs.zipIdx.map fun x => .wr (Target.byte (i + x.2)).offset (x.1.setWidth 32)
  | .wrw j ws => ws.zipIdx.map fun x => .wr (Target.word (j + x.2)).offset (x.1.setWidth 32)
  | .crcb bs => bs.map fun b => .wr crcDataOffset (b.setWidth 32)
  | .clr => [.wr statusOffset 0xE#32]
  | .run i l name => .wr cmdOffset (encode i).2 :: waitLines l name

/-- A host running a program: its lines, the index of its next line, and its variables by number. -/
structure HostAgent where
  lines : List HostLine
  next  : Nat
  vars  : List (Nat × Word)
  deriving DecidableEq, Repr

/-- The host and the block. -/
structure System where
  host  : HostAgent
  block : State
  deriving DecidableEq, Repr

/-- The host makes the access `a`, next of all turns. -/
def System.access (a : Access) (y : System) : Option State :=
  match step { y.block with agenda := .host a :: y.block.agenda } with
  | .next b => some b
  | .fault _ | .refused _ => none

/-- The word a read returned. -/
def readData : Option BusResponse → Word
  | some (.read _ d) => d
  | some (.written _) | none => 0#32

/-- Where a taken or untaken branch goes: to its label, or to the next line. DESIGN CHOICE: of several lines with the label,
the first (log entry 20); with none, the host's program ends (log entry 17). -/
def HostAgent.branch (taken : Bool) (l : Nat) (h : HostAgent) : Option HostAgent :=
  if taken then (h.lines.findIdx? (· == .label l)).map fun k => { h with next := k }
  else some { h with next := h.next + 1 }

/-- The host runs its next line (R72); `none` when its program has ended, and when a line reads a variable that has no
value or names a label that is not there (log entry 17). -/
def System.hostLine (y : System) : Option System :=
  match y.host.lines[y.host.next]? with
  | none => none
  | some (.wr off imm) =>
    (y.access (.memWrite off imm)).map fun b => ⟨{ y.host with next := y.host.next + 1 }, b⟩
  | some (.rd off name) =>
    (y.access (.memRead off)).map fun b =>
      ⟨{ y.host with next := y.host.next + 1, vars := cellPut name (readData b.response) y.host.vars }, b⟩
  | some (.label _) => some { y with host := { y.host with next := y.host.next + 1 } }
  | some (.bnz name mask l) =>
    match cellGet name y.host.vars with
    | none => none
    | some v => (y.host.branch (v &&& mask != 0#32) l).map fun h => { y with host := h }
  | some (.bz name mask l) =>
    match cellGet name y.host.vars with
    | none => none
    | some v => (y.host.branch (v &&& mask == 0#32) l).map fun h => { y with host := h }

/-- The block takes the turn `t` (the engine's, or a hardware reset) next of all. -/
def System.blockTurn (t : Turn) (y : System) : Option System :=
  match step { y.block with agenda := t :: y.block.agenda } with
  | .next b => some { y with block := b }
  | .fault _ | .refused _ => none

end Sys2Proof.Machine
end

