-- ==== Sys2Proof/Safety.lean ====
section
/-! DEFINITION. What counts as a good state, and the terms the claims use. -/
namespace Sys2Proof.Machine

/-- What holds in every state a run reaches. -/
structure State.Inv (s : State) : Prop where
  /-- PENDING is none exactly when STATUS.BUSY = 0 (10_state.md R39). -/
  busy_pending : s.regs.busy = s.pending.isSome
  /-- BUSY = 1 implies DONE = 0 and ERR = 0 (R19). -/
  busy_clear : s.regs.busy = true → s.regs.done = false ∧ s.regs.err = false
  /-- SOFT_RESET is never latched: it takes effect at its bus write (40_command_control.md R74, R80). -/
  pending_command : s.pending ≠ some 0x000000FF#32
  /-- ERRCODE is one of the codes 0 to 9 (60_exceptions.md R108, U6). -/
  errcode_known : s.regs.errcode.toNat ≤ 9
  /-- ERR = 1 only with a nonzero ERRCODE (R19, R77). -/
  err_code : s.regs.err = true → s.regs.errcode ≠ 0#8
  /-- The buffers are in canonical form and inside their bounds (R37, R38, 20_memory.md R56). -/
  mem_wf : s.mem.wf = true

/-- Quiescence (70_reset_and_hazards.md R136). -/
def State.quiescent (s : State) : Prop := s.regs.busy = false

/-- BUF[0..LEN) holds the bytes `f`, and LEN is their number (10_state.md R23). -/
def Loaded (s : State) (f : List Byte) : Prop :=
  s.regs.len.toNat = f.length ∧ ∀ k (h : k < f.length), s.bufByte k = f[k]

/-- Every entry of BUF reads in `t` as in `s`. -/
def SameBuf (s t : State) : Prop := ∀ i, t.bufByte i = s.bufByte i

/-- Every entry of WORDS reads in `t` as in `s`. -/
def SameWords (s t : State) : Prop := ∀ j, t.wordAt j = s.wordAt j

/-- The model's own fields are in `t` as in `s`. -/
def SameOutside (s t : State) : Prop :=
  t.resetCount = s.resetCount ∧ t.response = s.response ∧ t.agenda = s.agenda

/-- `t` is `s` after a completion with `code` (40_command_control.md R77) that leaves the registers as `r` but for ERRCODE
and STATUS; WERR is as in `r`. Nothing is said of BUF and WORDS. -/
def Recorded (s t : State) (code : Byte) (r : Regs) : Prop :=
  t.regs = { r with errcode := code, done := true, err := code != 0#8, busy := false } ∧
  t.pending = none ∧ SameOutside s t

/-- The command `i` completes in `s` with the error `code` and writes nothing but ERRCODE and STATUS. -/
def FailsWith (i : Instr) (s : State) (code : Byte) : Prop :=
  ∃ t, exec i s = .next t ∧ Recorded s t code s.regs ∧ SameBuf s t ∧ SameWords s t

/-- `s` with the host's access `a` next and then `rest`. -/
def State.facing (a : Access) (rest : List Turn) (s : State) : State :=
  { s with agenda := .host a :: rest }

/-- `s` once the host has received `r`, with `rest` to come. -/
def State.answered (r : BusResponse) (rest : List Turn) (s : State) : State :=
  { s with agenda := rest, response := some r }

/-- SLVERR with read data 0 (20_memory.md R44, R45). -/
def errorAnswer (a : Access) : BusResponse :=
  match a.op with
  | .read => .read .slverr 0#32
  | .write _ => .written .slverr

/-- The offsets of the RW registers with the bits of their fields (10_state.md R16). -/
def rwFields : List (Off × Word) :=
  [(0x004#14, 0x3#32), (0x014#14, 0xFFFF#32), (0x01C#14, 0xFF#32), (0x020#14, 0xFF#32), (0x024#14, 0xFFFF#32),
   (0x028#14, 0xFFFF#32), (0x02C#14, 0xFFFF#32), (0x030#14, 0xFFFF#32), (0x034#14, 0xFF#32)]

/-- The offsets of the RO registers (R16). -/
def roOffsets : List Off :=
  [0x000#14, 0x010#14, 0x038#14, 0x03C#14, 0x040#14, 0x044#14, 0x048#14, 0x04C#14]

/-- The offset of an RW register, of BUF[i] or of WORDS[j] (R16, 20_memory.md R43). -/
def IsStoreOffset (off : Off) : Prop :=
  (∃ m, (off, m) ∈ rwFields) ∨ (∃ i, i < 260 ∧ off.toNat = 0x1000 + 4 * i) ∨
  (∃ j, j < 128 ∧ off.toNat = 0x2000 + 4 * j)

/-- The word-aligned offsets that are unmapped (20_memory.md R45). -/
def IsUnmapped (off : Off) : Prop :=
  off.toNat % 4 = 0 ∧
  ((0x0050 ≤ off.toNat ∧ off.toNat ≤ 0x0FFC) ∨ (0x1410 ≤ off.toNat ∧ off.toNat ≤ 0x1FFC) ∨
   (0x2200 ≤ off.toNat ∧ off.toNat ≤ 0x3FFC))

/-- An access that is not 32 bits wide, aligned and on all four byte lanes (20_memory.md R44). -/
def IsIllegalAccess (a : Access) : Prop :=
  a.size ≠ 4 ∨ a.off.toNat % 4 ≠ 0 ∨ a.lanes ≠ 0xF#4

/-- What each register reads as after reset (70_reset_and_hazards.md R125). -/
def resetReads : List (Reg × Word) :=
  [(.id, 0x4D430001#32), (.ctrl, 0#32), (.status, 0#32), (.cmd, 0#32), (.errcode, 0#32), (.crc, 0xFFFF#32),
   (.crcData, 0#32), (.unit, 0#32), (.func, 0#32), (.addr, 0#32)] ++
  [(.count, 0#32), (.txn, 0#32), (.len, 0#32), (.nwords, 0#32), (.rspUnit, 0#32), (.rspFunc, 0#32),
   (.rspExc, 0#32), (.rspAddr, 0#32), (.rspQty, 0#32), (.rspTxn, 0#32)]

/-- Every register reads its reset value and PENDING is none (R125). -/
def AtReset (t : State) : Prop :=
  t.pending = none ∧ ∀ p ∈ resetReads, t.readTarget (.reg p.1) = p.2

/-- A bit of a word. -/
def bitWord (b : Bool) (k : Nat) : Word := if b then 1#32 <<< k else 0#32

/-- What a read of each register returns, by offset (10_state.md R16 to R36). -/
def registerReads (r : Regs) : List (Off × Word) :=
  [(0x000#14, 0x4D430001#32),
   (0x004#14, bitWord (r.mode == .mbap) 0 ||| bitWord r.irqEn 1),
   (0x008#14, bitWord r.busy 0 ||| bitWord r.done 1 ||| bitWord r.err 2 ||| bitWord r.werr 3),
   (0x00C#14, 0#32), (0x010#14, r.errcode.setWidth 32), (0x014#14, r.crc.setWidth 32), (0x018#14, 0#32),
   (0x01C#14, r.unit.setWidth 32), (0x020#14, r.func.setWidth 32), (0x024#14, r.addr.setWidth 32)] ++
  [(0x028#14, r.count.setWidth 32), (0x02C#14, r.txn.setWidth 32), (0x030#14, r.len.setWidth 32),
   (0x034#14, r.nwords.setWidth 32), (0x038#14, r.rspUnit.setWidth 32), (0x03C#14, r.rspFunc.setWidth 32),
   (0x040#14, r.rspExc.setWidth 32), (0x044#14, r.rspAddr.setWidth 32), (0x048#14, r.rspQty.setWidth 32),
   (0x04C#14, r.rspTxn.setWidth 32)]

/-- The successful end of DECODE on a reply with unit `u`, function `f`, address `a`, quantity `q` and words `ws`, in the
state `s` (43_decode.md R106): RSP_TXN is TXN in MBAP mode and 0 in RTU mode. -/
def Replied (s t : State) (u f : Byte) (a q : Half) (ws : List Half) : Prop :=
  Recorded s t 0#8 { s.regs with
    rspUnit := u, rspFunc := f, rspExc := 0#8, rspAddr := a, rspQty := q,
    rspTxn := (if s.regs.mode = .mbap then s.regs.txn else 0#16), nwords := BitVec.ofNat 8 ws.length } ∧
  SameBuf s t ∧ (∀ j (h : j < ws.length), t.wordAt j = ws[j]) ∧ (∀ j, ws.length ≤ j → t.wordAt j = s.wordAt j)

end Sys2Proof.Machine
end

