-- ==== Sys2Proof/Certificates/Slice0/Obligations.lean ====
section
/-! DEFINITION. The statements for the provers. Each docstring says which rule of spec/ it formalises. -/

open Sys2Proof Sys2Proof.Machine

/-! ## Reset -/

/-- 70_reset_and_hazards.md R125: hardware reset and SOFT_RESET both leave the values of the table. -/
def Obligations.ResetValues : Prop :=
  ∀ (s : State) (rest : List Turn),
    (∃ t, step { s with agenda := .hardReset :: rest } = .next t ∧ AtReset t) ∧
    (∃ t, exec .softReset s = .next t ∧ AtReset t)

/-- 40_command_control.md R80: SOFT_RESET in any state, at the bus write, keeping BUF and WORDS; a word with low byte 0xFF
and a nonzero RSVD is accepted as an illegal command when idle and dropped while busy. -/
def Obligations.SoftResetAbandonsCommand : Prop :=
  (∀ s : State, ∃ t, exec .softReset s = .next t ∧ AtReset t ∧ t.irq = false ∧
    SameBuf s t ∧ SameWords s t ∧ SameOutside s t) ∧
  (∀ (s : State) (rest : List Turn),
    step (s.facing (.memWrite 0x00C#14 0xFF#32) rest) = exec .softReset (s.answered (.written .okay) rest)) ∧
  (∀ (s : State) (rest : List Turn) (w : Word), w.extractLsb' 0 8 = 0xFF#8 → w.extractLsb' 8 24 ≠ 0#24 →
    decodeCommand w = .illegal w ∧ FailsWith (.illegal w) s 9#8 ∧
    (s.regs.busy = false → step (s.facing (.memWrite 0x00C#14 w) rest) =
      .next { s.answered (.written .okay) rest with
        pending := some w, regs := { s.regs with busy := true, done := false, err := false } }) ∧
    (s.regs.busy = true → step (s.facing (.memWrite 0x00C#14 w) rest) =
      .next { s.answered (.written .okay) rest with regs := { s.regs with werr := true } }))

/-- 70_reset_and_hazards.md R124, R126: hardware reset from any state, with a command pending or not. The buffer entries
read as the free values of the new reset (the model's choice of `any value`, log entry 3). -/
def Obligations.HardResetClearsBlock : Prop :=
  ∀ (s : State) (rest : List Turn), ∃ t, step { s with agenda := .hardReset :: rest } = .next t ∧
    AtReset t ∧ t.irq = false ∧ t.agenda = rest ∧
    (∀ i, t.bufByte i = Config.freeByte (s.resetCount + 1) i) ∧
    (∀ j, t.wordAt j = Config.freeHalf (s.resetCount + 1) j)

/-- R127, 40_command_control.md R77: the engine's step is enabled only while BUSY; an idle block does nothing by itself
(that it is asked at all with nothing to come is the model's choice, log entry 2). -/
def Obligations.IdleBlockDoesNothing : Prop :=
  ∀ (s : State) (rest : List Turn), s.quiescent →
    step { s with agenda := [] } = .next { s with agenda := [] } ∧
    step { s with agenda := .engine :: rest } = .next { s with agenda := rest }

/-! ## Encoding -/

/-- 30_encoding.md R58: the opcode map, each word matched on all its bits, and the two register-write operations with their
offsets. -/
def Obligations.OpcodeMapDecodes : Prop :=
  (∀ p ∈ [(0x00000000#32, Instr.nop), (0x00000001#32, .crcInit), (0x00000002#32, .crcBuf), (0x00000003#32, .crcCheck),
      (0x00000004#32, .crcAppend), (0x00000010#32, .encRead), (0x00000011#32, .encWrite), (0x00000020#32, .decode),
      (0x000000FF#32, .softReset)], ∀ w : Word, decodeWrite 0x00C#14 w = .ok p.2 ↔ w = p.1) ∧
  (∀ v : Word, decodeWrite 0x018#14 v = .ok (.crcData v) ∧ decodeWrite 0x008#14 v = .ok (.statusClear v))

/-- 30_encoding.md R59 and 40_command_control.md R81: every word with RSVD nonzero or a reserved opcode is illegal, and
completes with code 9 and no other write. -/
def Obligations.ReservedWordsAreIllegal : Prop :=
  ∀ w : Word,
    (w.extractLsb' 8 24 ≠ 0#24 ∨ (5 ≤ w.toNat ∧ w.toNat ≤ 0x0F) ∨ (0x12 ≤ w.toNat ∧ w.toNat ≤ 0x1F) ∨
      (0x21 ≤ w.toNat ∧ w.toNat ≤ 0xFE)) →
    decodeCommand w = .illegal w ∧ ∀ s : State, FailsWith (.illegal w) s 9#8

/-- Every well-formed operation comes back from its bus write: no bit of an encoding is dropped. -/
def Obligations.DecodeOfEncode : Prop :=
  ∀ i : Instr, i.wf = true → decodeWrite (encode i).1 (encode i).2 = .ok i

/-- A bus write that decodes to an operation is the encoding of that operation, which is well formed: the command words
mean one thing each. -/
def Obligations.EncodeOfDecode : Prop :=
  ∀ (off : Off) (v : Word) (i : Instr), decodeWrite off v = .ok i → encode i = (off, v) ∧ i.wf = true

/-! ## Command lifecycle -/

/-- A step runs the decoded command: while BUSY, the engine's turn is exactly the operation PENDING decodes to
(40_command_control.md R77). With nothing to come the engine moves (log entry 2). -/
def Obligations.EngineRunsPendingCommand : Prop :=
  ∀ (s : State) (w : Word) (rest : List Turn), s.regs.busy = true → s.pending = some w →
    step { s with agenda := .engine :: rest } = exec (decodeCommand w) { s with agenda := rest } ∧
    step { s with agenda := [] } = exec (decodeCommand w) { s with agenda := [] }

/-- A step runs the decoded bus operation: SOFT_RESET, a CRC_DATA write and a STATUS write take effect at the bus write,
answered OKAY, in any state. -/
def Obligations.BusWriteRunsOperation : Prop :=
  ∀ (s : State) (off : Off) (v : Word) (i : Instr) (rest : List Turn), decodeWrite off v = .ok i →
    (i = .softReset ∨ i = .crcData v ∨ i = .statusClear v) →
    step (s.facing (.memWrite off v) rest) = exec i (s.answered (.written .okay) rest)

/-- 40_command_control.md R74: acceptance, and SOFT_RESET at once. -/
def Obligations.IdleCommandIsAccepted : Prop :=
  ∀ (s : State) (v : Word) (rest : List Turn), s.regs.busy = false →
    (v = 0x000000FF#32 → step (s.facing (.memWrite 0x00C#14 v) rest) =
      exec .softReset (s.answered (.written .okay) rest)) ∧
    (v ≠ 0x000000FF#32 → ∃ t, step (s.facing (.memWrite 0x00C#14 v) rest) = .next t ∧ t.irq = false ∧
      t = { s.answered (.written .okay) rest with
            pending := some v, regs := { s.regs with busy := true, done := false, err := false } })

/-- 40_command_control.md R75: a CMD write while busy is dropped, sets WERR, and is answered OKAY. -/
def Obligations.BusyCommandIsDropped : Prop :=
  ∀ (s : State) (v : Word) (rest : List Turn), s.regs.busy = true → v ≠ 0x000000FF#32 →
    step (s.facing (.memWrite 0x00C#14 v) rest) =
      .next { s.answered (.written .okay) rest with regs := { s.regs with werr := true } }

/-- 40_command_control.md R76: the other writes while busy. -/
def Obligations.BusyWritesAreDropped : Prop :=
  ∀ (s : State) (off : Off) (v : Word) (rest : List Turn), s.regs.busy = true →
    ((off = 0x018#14 ∨ IsStoreOffset off) → step (s.facing (.memWrite off v) rest) =
      .next { s.answered (.written .okay) rest with regs := { s.regs with werr := true } }) ∧
    (off = 0x008#14 → step (s.facing (.memWrite off v) rest) =
      exec (.statusClear v) (s.answered (.written .okay) rest)) ∧
    (off ∈ roOffsets → step (s.facing (.memWrite off v) rest) = .next (s.answered (.written .okay) rest)) ∧
    (∀ a : Access, IsIllegalAccess a ∨ IsUnmapped a.off →
      step (s.facing a rest) = .next (s.answered (errorAnswer a) rest))

/-- R76, R129, R130: while busy no host access but the SOFT_RESET word changes PENDING, a buffer, or any register field but
DONE, ERR and WERR. -/
def Obligations.OperandsHoldWhileBusy : Prop :=
  ∀ (s : State) (a : Access) (rest : List Turn), s.regs.busy = true → a ≠ .memWrite 0x00C#14 0x000000FF#32 →
    ∃ t, step (s.facing a rest) = .next t ∧ t.pending = s.pending ∧ t.mem = s.mem ∧
      t.resetCount = s.resetCount ∧ t.agenda = rest ∧
      t.regs = { s.regs with done := t.regs.done, err := t.regs.err, werr := t.regs.werr }

/-- R77: what every completion leaves, whatever the command and its result: BUSY and PENDING cleared, DONE set, ERR exactly
when ERRCODE is nonzero, a known code, `irq` equal to IRQ_EN, and the configuration and operand registers that no command
writes unchanged. -/
def Obligations.CompletionRecordsResult : Prop :=
  ∀ (i : Instr) (s : State), (∀ v, i ≠ .softReset ∧ i ≠ .crcData v ∧ i ≠ .statusClear v) →
    ∃ t, exec i s = .next t ∧ t.regs.busy = false ∧ t.pending = none ∧ t.regs.done = true ∧
      (t.regs.err = true ↔ t.regs.errcode ≠ 0#8) ∧ t.regs.errcode.toNat ≤ 9 ∧ t.irq = s.regs.irqEn ∧
      t.regs.werr = s.regs.werr ∧ t.regs.mode = s.regs.mode ∧ t.regs.irqEn = s.regs.irqEn ∧
      t.regs.unit = s.regs.unit ∧ t.regs.func = s.regs.func ∧ t.regs.addr = s.regs.addr ∧
      t.regs.count = s.regs.count ∧ t.regs.txn = s.regs.txn ∧ SameOutside s t

/-- 10_state.md R41: commands read no flag. Two states that differ only in DONE, ERR, WERR and ERRCODE complete a command
alike, but for the WERR each had. -/
def Obligations.CommandsReadNoFlag : Prop :=
  ∀ (i : Instr) (s : State) (d e w : Bool) (c : Byte),
    (∀ v, i ≠ .softReset ∧ i ≠ .crcData v ∧ i ≠ .statusClear v) →
    ∃ t, exec i s = .next t ∧
      exec i { s with regs := { s.regs with done := d, err := e, werr := w, errcode := c } } =
        .next { t with regs := { t.regs with werr := w } }

/-- 95_test_vectors.md P5: a store that races a completion. Dropped before the completion or not made at all, the command
leaves the same state, but for WERR and the host's answer. -/
def Obligations.DroppedStoreDoesNotDisturbCommand : Prop :=
  ∀ (s : State) (w : Word) (off : Off) (v : Word) (rest : List Turn), s.regs.busy = true → s.pending = some w →
    w ≠ 0x000000FF#32 → IsStoreOffset off →
    ∃ t, step { s with agenda := .engine :: rest } = .next t ∧
      Sys2Proof.core.run 2 (s.facing (.memWrite off v) (.engine :: rest)) =
        .next { t with regs := { t.regs with werr := true }, response := some (.written .okay) }

/-- Only four things end the BUSY window: the engine's turn (of its own with nothing to come, log entry 2), SOFT_RESET and
hardware reset (R77, R80, R123). -/
def Obligations.OnlyTheseEndBusy : Prop :=
  ∀ (s t : State), step s = .next t → s.regs.busy = true → t.regs.busy = false →
    s.agenda = [] ∨ ∃ rest, s.agenda = .engine :: rest ∨ s.agenda = .hardReset :: rest ∨
      s.agenda = .host (.memWrite 0x00C#14 0x000000FF#32) :: rest

/-- 60_exceptions.md R111: `irq` rises only at a completion, or when the host enables it with DONE set. -/
def Obligations.OnlyTheseRaiseIrq : Prop :=
  ∀ (s t : State), step s = .next t → s.irq = false → t.irq = true →
    (s.regs.busy = true ∧ t.regs.done = true ∧ (s.agenda = [] ∨ ∃ rest, s.agenda = .engine :: rest)) ∨
    (s.regs.done = true ∧ ∃ v rest, s.agenda = .host (.memWrite 0x004#14 v) :: rest ∧ v.getLsbD 1 = true)

/-! ## The bus -/

/-- 20_memory.md R44: an illegal access, in any state. -/
def Obligations.IllegalAccessAnswersSlverr : Prop :=
  ∀ (s : State) (a : Access) (rest : List Turn), IsIllegalAccess a →
    step (s.facing a rest) = .next (s.answered (errorAnswer a) rest)

/-- 20_memory.md R45: an access to an unmapped offset, in any state. -/
def Obligations.UnmappedAccessAnswersSlverr : Prop :=
  ∀ (s : State) (off : Off) (v : Word) (rest : List Turn), IsUnmapped off →
    step (s.facing (.memRead off) rest) = .next (s.answered (.read .slverr 0#32) rest) ∧
    step (s.facing (.memWrite off v) rest) = .next (s.answered (.written .slverr) rest)

/-- R16, R46, R47: a read of a mapped offset is answered OKAY with the field, every other bit 0, and changes nothing. -/
def Obligations.ReadsReturnFieldsOnly : Prop :=
  ∀ (s : State) (rest : List Turn),
    (∀ p ∈ registerReads s.regs,
      step (s.facing (.memRead p.1) rest) = .next (s.answered (.read .okay p.2) rest)) ∧
    (∀ i, i < 260 → step (s.facing (.memRead (BitVec.ofNat 14 (0x1000 + 4 * i))) rest) =
      .next (s.answered (.read .okay ((s.bufByte i).setWidth 32)) rest)) ∧
    (∀ j, j < 128 → step (s.facing (.memRead (BitVec.ofNat 14 (0x2000 + 4 * j))) rest) =
      .next (s.answered (.read .okay ((s.wordAt j).setWidth 32)) rest))

/-- R16, R46: with BUSY = 0, a write to an RW register and then a read of it return the written word's field bits; and a
read of any other register returns what it did. -/
def Obligations.RegisterWriteThenRead : Prop :=
  ∀ (s : State) (off : Off) (m v : Word) (rest : List Turn), s.regs.busy = false → (off, m) ∈ rwFields →
    ∃ t, step (s.facing (.memWrite off v) rest) = .next t ∧
      step (t.facing (.memRead off) rest) = .next (t.answered (.read .okay (v &&& m)) rest) ∧
      (∀ off' x, off' ≠ off → (off', x) ∈ registerReads s.regs → (off', x) ∈ registerReads t.regs) ∧
      t.mem = s.mem ∧ t.pending = s.pending ∧ t.resetCount = s.resetCount ∧ t.agenda = rest ∧
      t.response = some (.written .okay)

/-- 10_state.md R37, R38: with BUSY = 0, a write to a buffer entry changes that entry alone. -/
def Obligations.BufferWriteChangesOneEntry : Prop :=
  ∀ (s : State) (v : Word) (rest : List Turn), s.regs.busy = false →
    (∀ i, i < 260 → ∃ t, step (s.facing (.memWrite (BitVec.ofNat 14 (0x1000 + 4 * i)) v) rest) = .next t ∧
      (∀ k, t.bufByte k = if k = i then v.setWidth 8 else s.bufByte k) ∧ SameWords s t ∧
      t.regs = s.regs ∧ t.pending = s.pending ∧ t.resetCount = s.resetCount ∧ t.agenda = rest ∧
      t.response = some (.written .okay)) ∧
    (∀ j, j < 128 → ∃ t, step (s.facing (.memWrite (BitVec.ofNat 14 (0x2000 + 4 * j)) v) rest) = .next t ∧
      (∀ k, t.wordAt k = if k = j then v.setWidth 16 else s.wordAt k) ∧ SameBuf s t ∧
      t.regs = s.regs ∧ t.pending = s.pending ∧ t.resetCount = s.resetCount ∧ t.agenda = rest ∧
      t.response = some (.written .okay))

/-- R16, R46: the bus never writes a read-only register. No host access but the SOFT_RESET word changes ERRCODE or a RSP_*
register, in any state. -/
def Obligations.BusNeverWritesResults : Prop :=
  ∀ (s : State) (a : Access) (rest : List Turn), a ≠ .memWrite 0x00C#14 0x000000FF#32 →
    ∃ t, step (s.facing a rest) = .next t ∧ t.regs.errcode = s.regs.errcode ∧
      t.regs.rspUnit = s.regs.rspUnit ∧ t.regs.rspFunc = s.regs.rspFunc ∧ t.regs.rspExc = s.regs.rspExc ∧
      t.regs.rspAddr = s.regs.rspAddr ∧ t.regs.rspQty = s.regs.rspQty ∧ t.regs.rspTxn = s.regs.rspTxn

/-- R16, R43: the address map names every mapped offset once, and exactly the offsets of R44 and R45 are not mapped. -/
def Obligations.AddressMapIsOneToOne : Prop :=
  (∀ (off : Off) (x : Target), targetOf off = some x → x.offset = off) ∧
  (∀ off : Off, targetOf off = none ↔ (off.toNat % 4 ≠ 0 ∨ IsUnmapped off))

/-- 20_memory.md R42, R51: for every BASE_ADDR, exactly the platform addresses of the window reach the block, each at its
offset (log entry 9). -/
def Obligations.WindowFollowsBaseAddr : Prop :=
  ∀ (base addr : Nat),
    (∀ off : Off, windowOffset base (base + off.toNat) = some off) ∧
    ((addr < base ∨ base + 0x4000 ≤ addr) → windowOffset base addr = none)

/-- 40_command_control.md R78: the STATUS clear, in any state. -/
def Obligations.StatusClearClearsWrittenBits : Prop :=
  ∀ (s : State) (v : Word),
    (∃ t, exec (.statusClear v) s = .next t ∧
      t = { s with regs := { s.regs with
              done := (if v.getLsbD 1 then false else s.regs.done),
              err := (if v.getLsbD 2 then false else s.regs.err),
              werr := (if v.getLsbD 3 then false else s.regs.werr) } }) ∧
    (∀ rest, step (s.facing (.memWrite 0x008#14 v) rest) =
      exec (.statusClear v) (s.answered (.written .okay) rest))

/-! ## The CRC unit -/

/-- 41_crc.md R89: a CRC_DATA write takes in one byte at the bus write, ignoring bits 31:8, or is dropped while busy; fed a
byte sequence from 0xFFFF it leaves the sequence's CRC. -/
def Obligations.CrcDataTakesInBytes : Prop :=
  (∀ (s : State) (v : Word),
    (s.regs.busy = false → ∃ t, exec (.crcData v) s = .next t ∧
      t = { s with regs := { s.regs with crc := crcUpdate s.regs.crc (v.extractLsb' 0 8) } }) ∧
    (s.regs.busy = true → ∃ t, exec (.crcData v) s = .next t ∧
      t = { s with regs := { s.regs with werr := true } }) ∧
    (∀ rest, step (s.facing (.memWrite 0x018#14 v) rest) = exec (.crcData v) (s.answered (.written .okay) rest))) ∧
  (∀ (s : State) (p : List Byte), p ≠ [] → s.regs.busy = false → s.regs.crc = 0xFFFF#16 →
    Sys2Proof.core.run p.length
        { s with agenda := p.map fun b => .host (.memWrite 0x018#14 (b.setWidth 32)) } =
      .next { s with agenda := [], response := some (.written .okay), regs := { s.regs with crc := crc16 p } })

/-- 41_crc.md R87 item 2: the residue of a frame that carries its own CRC is 0. -/
def Obligations.CrcResidueIsZero : Prop :=
  ∀ p : List Byte, crc16 (rtuFrame p) = 0x0000#16

/-- 40_command_control.md R79 and 41_crc.md R90: NOP writes nothing but the result; CRC_INIT sets CRC to 0xFFFF. -/
def Obligations.NopAndCrcInitResults : Prop :=
  ∀ s : State,
    (∃ t, exec .nop s = .next t ∧ Recorded s t 0#8 s.regs ∧ SameBuf s t ∧ SameWords s t) ∧
    (∃ t, exec .crcInit s = .next t ∧ Recorded s t 0#8 { s.regs with crc := 0xFFFF#16 } ∧ SameBuf s t ∧ SameWords s t)

/-- 41_crc.md R91: CRC_BUF. -/
def Obligations.CrcBufResult : Prop :=
  ∀ s : State,
    (s.regs.len.toNat > 260 → FailsWith .crcBuf s 1#8) ∧
    (∀ f : List Byte, Loaded s f → f.length ≤ 260 →
      ∃ t, exec .crcBuf s = .next t ∧ Recorded s t 0#8 { s.regs with crc := crc16 f } ∧ SameBuf s t ∧ SameWords s t)

/-- 41_crc.md R92: CRC_CHECK, on a frame whose last two bytes are `lo` and `hi`. -/
def Obligations.CrcCheckResult : Prop :=
  ∀ s : State,
    (s.regs.len.toNat > 260 → FailsWith .crcCheck s 1#8) ∧
    (s.regs.len.toNat < 2 → FailsWith .crcCheck s 2#8) ∧
    (∀ (p : List Byte) (lo hi : Byte), Loaded s (p ++ [lo, hi]) → p.length + 2 ≤ 260 →
      ∃ t, exec .crcCheck s = .next t ∧
        Recorded s t (if crc16 p = be16 hi lo then 0#8 else 3#8) { s.regs with crc := crc16 p } ∧
        SameBuf s t ∧ SameWords s t)

/-- 41_crc.md R93: CRC_APPEND makes the RTU frame of what BUF holds. -/
def Obligations.CrcAppendResult : Prop :=
  ∀ s : State,
    (s.regs.len.toNat > 258 → FailsWith .crcAppend s 1#8) ∧
    (∀ f : List Byte, Loaded s f → f.length ≤ 258 →
      ∃ t, exec .crcAppend s = .next t ∧
        Recorded s t 0#8 { s.regs with crc := crc16 f, len := BitVec.ofNat 16 (f.length + 2) } ∧
        t.bufByte f.length = lo8 (crc16 f) ∧ t.bufByte (f.length + 1) = hi8 (crc16 f) ∧
        (∀ k, k < f.length ∨ f.length + 2 ≤ k → t.bufByte k = s.bufByte k) ∧ SameWords s t)

/-- R93: applying CRC_APPEND and then CRC_CHECK always succeeds, with the same CRC. -/
def Obligations.AppendThenCheckSucceeds : Prop :=
  ∀ s : State, s.regs.len.toNat ≤ 258 →
    ∃ t u, exec .crcAppend s = .next t ∧ exec .crcCheck t = .next u ∧ u.regs.errcode = 0#8 ∧ u.regs.err = false ∧
      u.regs.crc = t.regs.crc ∧ u.regs.len = t.regs.len

/-- 41_crc.md R88: the CRC operations do not read CTRL.MODE. -/
def Obligations.CrcOperationsIgnoreMode : Prop :=
  ∀ (i : Instr) (s : State) (m : Framing),
    ((∃ v, i = .crcData v) ∨ i = .crcInit ∨ i = .crcBuf ∨ i = .crcCheck ∨ i = .crcAppend) →
    ∃ t, exec i s = .next t ∧
      exec i { s with regs := { s.regs with mode := m } } = .next { t with regs := { t.regs with mode := m } }

/-! ## The encoders -/

/-- 42_encode.md R96, with Emit (R94) and the layouts R63, R64, R66: ENC_READ. -/
def Obligations.EncReadResult : Prop :=
  ∀ s : State,
    ((s.regs.count.toNat < 1 ∨ 125 < s.regs.count.toNat) → FailsWith .encRead s 1#8) ∧
    (∀ p : List Byte, 1 ≤ s.regs.count.toNat → s.regs.count.toNat ≤ 125 →
      p = [s.regs.unit, s.regs.func, hi8 s.regs.addr, lo8 s.regs.addr, hi8 s.regs.count, lo8 s.regs.count] →
      ∃ t, exec .encRead s = .next t ∧ SameWords s t ∧
        (s.regs.mode = .rtu → Recorded s t 0#8 { s.regs with crc := crc16 p, len := 8#16 } ∧
          Loaded t (p ++ [lo8 (crc16 p), hi8 (crc16 p)]) ∧ (∀ k, 8 ≤ k → t.bufByte k = s.bufByte k)) ∧
        (s.regs.mode = .mbap → Recorded s t 0#8 { s.regs with len := 12#16 } ∧
          Loaded t ([hi8 s.regs.txn, lo8 s.regs.txn, 0#8, 0#8, 0#8, 6#8] ++ p) ∧
          (∀ k, 12 ≤ k → t.bufByte k = s.bufByte k)))

/-- 42_encode.md R97, with Emit (R94) and the layouts R63, R64, R67: ENC_WRITE, for the register values `vs` that
WORDS[0..NWORDS) holds. -/
def Obligations.EncWriteResult : Prop :=
  ∀ s : State,
    ((s.regs.nwords.toNat < 1 ∨ 123 < s.regs.nwords.toNat) → FailsWith .encWrite s 1#8) ∧
    (∀ (vs : List Half) (p : List Byte), 1 ≤ vs.length → vs.length ≤ 123 → s.regs.nwords.toNat = vs.length →
      (∀ j (h : j < vs.length), s.wordAt j = vs[j]) →
      p = [s.regs.unit, s.regs.func, hi8 s.regs.addr, lo8 s.regs.addr, 0#8, s.regs.nwords,
           BitVec.ofNat 8 (2 * vs.length)] ++ vs.flatMap (fun w => [hi8 w, lo8 w]) →
      ∃ t, exec .encWrite s = .next t ∧ SameWords s t ∧
        (s.regs.mode = .rtu →
          Recorded s t 0#8 { s.regs with crc := crc16 p, len := BitVec.ofNat 16 (9 + 2 * vs.length) } ∧
          Loaded t (p ++ [lo8 (crc16 p), hi8 (crc16 p)]) ∧
          (∀ k, 9 + 2 * vs.length ≤ k → t.bufByte k = s.bufByte k)) ∧
        (s.regs.mode = .mbap →
          Recorded s t 0#8 { s.regs with len := BitVec.ofNat 16 (13 + 2 * vs.length) } ∧
          Loaded t ([hi8 s.regs.txn, lo8 s.regs.txn, 0#8, 0#8, 0#8, BitVec.ofNat 8 (7 + 2 * vs.length)] ++ p) ∧
          (∀ k, 13 + 2 * vs.length ≤ k → t.bufByte k = s.bufByte k)))

/-- 42_encode.md R98: every frame the encoders build is at most 259 bytes, 255 in RTU mode, and no byte beyond it is
written. -/
def Obligations.EncodedFramesFitBuf : Prop :=
  ∀ (i : Instr) (s : State), (i = .encRead ∨ i = .encWrite) → ∃ t, exec i s = .next t ∧
    (t.regs.errcode = 0#8 → t.regs.len.toNat ≤ 259 ∧ (s.regs.mode = .rtu → t.regs.len.toNat ≤ 255) ∧
      ∀ k, t.regs.len.toNat ≤ k → t.bufByte k = s.bufByte k)

/-! ## The decoder -/

/-- 43_decode.md R99 S1 and R100: the bound on LEN, and RTU framing on a frame whose last two bytes are `lo` and `hi`. -/
def Obligations.DecodeRtuFramingFailures : Prop :=
  ∀ s : State,
    (260 < s.regs.len.toNat → FailsWith .decode s 1#8) ∧
    (s.regs.mode = .rtu →
      (s.regs.len.toNat < 4 → FailsWith .decode s 2#8) ∧
      (∀ (p : List Byte) (lo hi : Byte), Loaded s (p ++ [lo, hi]) → 2 ≤ p.length → p.length + 2 ≤ 260 →
        crc16 p ≠ be16 hi lo → FailsWith .decode s 3#8))

/-- 43_decode.md R101: MBAP framing, the checks in their order. `m` is the length field. -/
def Obligations.DecodeMbapFramingFailures : Prop :=
  ∀ (s : State) (l m : Nat), s.regs.mode = .mbap → l = s.regs.len.toNat → l ≤ 260 →
    m = (be16 (s.bufByte 4) (s.bufByte 5)).toNat →
    (l < 8 → FailsWith .decode s 2#8) ∧
    (8 ≤ l → be16 (s.bufByte 2) (s.bufByte 3) ≠ 0#16 → FailsWith .decode s 7#8) ∧
    (8 ≤ l → be16 (s.bufByte 2) (s.bufByte 3) = 0#16 → l < 6 + m → FailsWith .decode s 2#8) ∧
    (8 ≤ l → be16 (s.bufByte 2) (s.bufByte 3) = 0#16 → 6 + m < l → FailsWith .decode s 6#8) ∧
    (8 ≤ l → be16 (s.bufByte 2) (s.bufByte 3) = 0#16 → l = 6 + m →
      be16 (s.bufByte 0) (s.bufByte 1) ≠ s.regs.txn → FailsWith .decode s 8#8)

/-- 43_decode.md R102: an intact frame whose function code has bit 7 set, in either framing. -/
def Obligations.DecodeExceptionResponse : Prop :=
  ∀ (s : State) (u f : Byte) (d : List Byte), f.getLsbD 7 = true →
    Loaded s (frameOf s.regs.mode s.regs.txn ([u, f] ++ d)) →
    (frameOf s.regs.mode s.regs.txn ([u, f] ++ d)).length ≤ 260 →
    (d = [] → FailsWith .decode s 2#8) ∧
    (1 < d.length → FailsWith .decode s 6#8) ∧
    (∀ e, d = [e] → ∃ t, exec .decode s = .next t ∧
      Recorded s t 4#8 { s.regs with rspUnit := u, rspFunc := f, rspExc := e } ∧ SameBuf s t ∧ SameWords s t)

/-- 43_decode.md R103: an intact frame whose function code has bit 7 clear and is not FUNC. -/
def Obligations.DecodeUnexpectedFunction : Prop :=
  ∀ (s : State) (u f : Byte) (d : List Byte), f.getLsbD 7 = false → f ≠ s.regs.func →
    Loaded s (frameOf s.regs.mode s.regs.txn ([u, f] ++ d)) →
    (frameOf s.regs.mode s.regs.txn ([u, f] ++ d)).length ≤ 260 →
    ∃ t, exec .decode s = .next t ∧
      Recorded s t 5#8 { s.regs with rspUnit := u, rspFunc := f } ∧ SameBuf s t ∧ SameWords s t

/-- 43_decode.md R104: the write layout, f = FUNC = 0x10, with the success commit R106. -/
def Obligations.DecodeWriteLayout : Prop :=
  ∀ (s : State) (u : Byte) (d : List Byte), s.regs.func = 0x10#8 →
    Loaded s (frameOf s.regs.mode s.regs.txn ([u, 0x10#8] ++ d)) →
    (frameOf s.regs.mode s.regs.txn ([u, 0x10#8] ++ d)).length ≤ 260 →
    (d.length < 4 → FailsWith .decode s 2#8) ∧
    (∀ a q : Half, d = [hi8 a, lo8 a, hi8 q, lo8 q] → ∃ t, exec .decode s = .next t ∧ Replied s t u 0x10#8 a q []) ∧
    (∀ (a q : Half) (bc : Byte) (x : List Byte), d = [hi8 a, lo8 a, hi8 q, lo8 q, bc] ++ x →
      (x.length < bc.toNat → FailsWith .decode s 2#8) ∧
      (bc.toNat < x.length → FailsWith .decode s 6#8) ∧
      (x.length = bc.toNat → bc.toNat % 2 = 1 → FailsWith .decode s 7#8) ∧
      (x.length = bc.toNat → bc.toNat % 2 = 0 → bc.toNat / 2 ≠ q.toNat → FailsWith .decode s 7#8) ∧
      (∀ ws : List Half, x = wordBytes ws → bc.toNat = 2 * ws.length → q.toNat = ws.length →
        ∃ t, exec .decode s = .next t ∧ Replied s t u 0x10#8 a q ws))

/-- 43_decode.md R105: the read layout, f = FUNC, f not 0x10 and bit 7 clear, with the success commit R106. -/
def Obligations.DecodeReadLayout : Prop :=
  ∀ (s : State) (u f : Byte) (d : List Byte), f.getLsbD 7 = false → f ≠ 0x10#8 → s.regs.func = f →
    Loaded s (frameOf s.regs.mode s.regs.txn ([u, f] ++ d)) →
    (frameOf s.regs.mode s.regs.txn ([u, f] ++ d)).length ≤ 260 →
    (d = [] → FailsWith .decode s 2#8) ∧
    (∀ (bc : Byte) (x : List Byte), d = [bc] ++ x →
      (x.length < bc.toNat → FailsWith .decode s 2#8) ∧
      (bc.toNat < x.length → FailsWith .decode s 6#8) ∧
      (x.length = bc.toNat → bc.toNat % 2 = 1 → FailsWith .decode s 7#8) ∧
      (∀ ws : List Half, x = wordBytes ws → bc.toNat = 2 * ws.length →
        ∃ t, exec .decode s = .next t ∧ Replied s t u f 0#16 0#16 ws))

/-- R99, R106: what DECODE may write, in any state: never BUF, LEN, CRC or COUNT; a code of 0 to 8; and with a code that is
not 0, 4 or 5 nothing but the result. -/
def Obligations.DecodeWritesOnlyItsOutputs : Prop :=
  ∀ s : State, ∃ t, exec .decode s = .next t ∧ SameBuf s t ∧ t.regs.len = s.regs.len ∧ t.regs.crc = s.regs.crc ∧
    t.regs.count = s.regs.count ∧ t.regs.errcode.toNat ≤ 8 ∧
    (t.regs.errcode ≠ 0#8 → SameWords s t ∧ t.regs.nwords = s.regs.nwords ∧ t.regs.rspAddr = s.regs.rspAddr ∧
      t.regs.rspQty = s.regs.rspQty ∧ t.regs.rspTxn = s.regs.rspTxn) ∧
    (t.regs.errcode = 0#8 → ∀ j, t.regs.nwords.toNat ≤ j → t.wordAt j = s.wordAt j) ∧
    (t.regs.errcode ≠ 0#8 → t.regs.errcode ≠ 4#8 → t.regs.errcode ≠ 5#8 →
      Recorded s t t.regs.errcode s.regs)

/-- R100, the source's tamper property: flipping any one bit of an accepted RTU frame makes DECODE fail with
CHECKSUM_MISMATCH. -/
def Obligations.FlippedBitFailsChecksum : Prop :=
  ∀ (s t u : State) (k b : Nat), s.regs.mode = .rtu → exec .decode s = .next u → u.regs.errcode = 0#8 →
    k < s.regs.len.toNat → b < 8 → t.regs = s.regs →
    (∀ j, t.bufByte j = if j = k then s.bufByte j ^^^ (1#8 <<< b) else s.bufByte j) →
    FailsWith .decode t 3#8

/-- R107, first half: a well-formed read reply decodes to exactly its words, in either framing. -/
def Obligations.ReadReplyRoundTrip : Prop :=
  ∀ (s : State) (u f : Byte) (ws : List Half), f.getLsbD 7 = false → f ≠ 0x10#8 → s.regs.func = f →
    (frameOf s.regs.mode s.regs.txn (readReply u f ws)).length ≤ 260 →
    Loaded s (frameOf s.regs.mode s.regs.txn (readReply u f ws)) →
    ∃ t, exec .decode s = .next t ∧ t.regs.errcode = 0#8 ∧ t.regs.nwords.toNat = ws.length ∧
      t.regs.rspUnit = u ∧ t.regs.rspFunc = f ∧ ∀ j (h : j < ws.length), t.wordAt j = ws[j]

/-- R107, second half: a write request that ENC_WRITE built decodes, with FUNC = 0x10, to the same NWORDS and WORDS, in
either framing; RSP_ADDR and RSP_QTY are its address and count. -/
def Obligations.WriteRequestRoundTrip : Prop :=
  ∀ s : State, s.regs.func = 0x10#8 → 1 ≤ s.regs.nwords.toNat → s.regs.nwords.toNat ≤ 123 →
    ∃ t u, exec .encWrite s = .next t ∧ exec .decode t = .next u ∧ u.regs.errcode = 0#8 ∧
      u.regs.nwords = s.regs.nwords ∧ u.regs.rspUnit = s.regs.unit ∧ u.regs.rspAddr = s.regs.addr ∧
      u.regs.rspQty.toNat = s.regs.nwords.toNat ∧ SameWords s u ∧ SameBuf t u

/-! ## The whole machine -/

/-- The invariant holds after reset. -/
def Obligations.ResetMeetsInvariant : Prop := State.reset.Inv

/-- From every state that meets the invariant, a step answers a next state that meets it: the block never stops (R113) and
never leaves its legal states (R19, R39, R56, R108). -/
def Obligations.StepKeepsInvariant : Prop :=
  ∀ s : State, s.Inv → ∃ t, step s = .next t ∧ t.Inv

/-- 30_encoding.md R73: the expansions of the pseudo-instructions, for a label `l` and a variable `n`. Where an index puts
BUF+i or WORDS+j past the window, the 14-bit offset is the model's choice (log entry 19); so is a WRB, WRW or CRCB of no value,
which has no line (log entry 21). -/
def Obligations.PseudoInstructionExpansions : Prop :=
  (∀ p ∈ [(Instr.nop, 0x00000000#32), (.crcInit, 0x00000001#32), (.crcBuf, 0x00000002#32), (.crcCheck, 0x00000003#32),
      (.crcAppend, 0x00000004#32), (.encRead, 0x00000010#32), (.encWrite, 0x00000011#32), (.decode, 0x00000020#32),
      (.softReset, 0x000000FF#32)],
    HostPseudo.expand (.cmd p.1) = [.wr 0x00C#14 p.2] ∧
    ∀ l n, HostPseudo.expand (.run p.1 l n) = HostPseudo.expand (.cmd p.1) ++ HostPseudo.expand (.wait l n)) ∧
  (∀ l n : Nat, HostPseudo.expand (.wait l n) = [.label l, .rd 0x008#14 n, .bnz n 0x1#32 l]) ∧
  (∀ (i : Nat) (bs : List Byte), (HostPseudo.expand (.wrb i bs)).length = bs.length ∧
    ∀ k (h : k < bs.length), (HostPseudo.expand (.wrb i bs))[k]? =
      some (.wr (BitVec.ofNat 14 (0x1000 + 4 * (i + k))) (bs[k].setWidth 32))) ∧
  (∀ (j : Nat) (ws : List Half), (HostPseudo.expand (.wrw j ws)).length = ws.length ∧
    ∀ k (h : k < ws.length), (HostPseudo.expand (.wrw j ws))[k]? =
      some (.wr (BitVec.ofNat 14 (0x2000 + 4 * (j + k))) (ws[k].setWidth 32))) ∧
  (∀ bs : List Byte, HostPseudo.expand (.crcb bs) = bs.map fun b => .wr 0x018#14 (b.setWidth 32)) ∧
  HostPseudo.expand .clr = [.wr 0x008#14 0xE#32]

/-- 30_encoding.md R72: what each line of a host program does. The block takes part only through the line's bus access; labels,
branches and variables are the host's (the form of the host, and the first of several lines with one label, are the model's
choice, log entries 17 and 20). -/
def Obligations.HostLinesReachBlockByAccess : Prop :=
  ∀ (y : System) (line : HostLine), y.host.lines[y.host.next]? = some line →
    (∀ off imm, line = .wr off imm → ∃ b, step (y.block.facing (.memWrite off imm) y.block.agenda) = .next b ∧
      y.hostLine = some ⟨{ y.host with next := y.host.next + 1 }, b⟩) ∧
    (∀ off name, line = .rd off name → ∃ b r d, step (y.block.facing (.memRead off) y.block.agenda) = .next b ∧
      b.response = some (.read r d) ∧
      y.hostLine = some ⟨{ y.host with next := y.host.next + 1, vars := cellPut name d y.host.vars }, b⟩) ∧
    (∀ l, line = .label l → y.hostLine = some { y with host := { y.host with next := y.host.next + 1 } }) ∧
    (∀ name mask l v k, cellGet name y.host.vars = some v → y.host.lines.findIdx? (· == .label l) = some k →
      (line = .bnz name mask l → y.hostLine =
        some { y with host := { y.host with next := if v &&& mask ≠ 0#32 then k else y.host.next + 1 } }) ∧
      (line = .bz name mask l → y.hostLine =
        some { y with host := { y.host with next := if v &&& mask = 0#32 then k else y.host.next + 1 } }))
end

