-- ==== Sys2Proof/Laws/Decode.lean ====
section
/-! SUPPORT. What decoding a bus write can answer, said once. -/
namespace Sys2Proof.Machine

/-- The words of the opcode map of 30_encoding.md R58 with what each selects, or an illegal word. -/
theorem decodeCommand_cases (w : Word) :
    (w = 0x00#32 ∧ decodeCommand w = .nop) ∨ (w = 0x01#32 ∧ decodeCommand w = .crcInit) ∨
    (w = 0x02#32 ∧ decodeCommand w = .crcBuf) ∨ (w = 0x03#32 ∧ decodeCommand w = .crcCheck) ∨
    (w = 0x04#32 ∧ decodeCommand w = .crcAppend) ∨ (w = 0x10#32 ∧ decodeCommand w = .encRead) ∨
    (w = 0x11#32 ∧ decodeCommand w = .encWrite) ∨ (w = 0x20#32 ∧ decodeCommand w = .decode) ∨
    (w = 0xFF#32 ∧ decodeCommand w = .softReset) ∨
    (isCommandWord w = false ∧ decodeCommand w = .illegal w) := by
  by_cases hr : rsvdField w = 0#24
  · have hw : w = (0#24 ++ opcodeField w : BitVec 32) := by
      apply BitVec.eq_of_getLsbD_eq
      intro i hi
      have hr' := congrArg (fun x => BitVec.getLsbD x (i - 8)) hr
      simp only [rsvdField, BitVec.getLsbD_extractLsb'] at hr'
      simp only [opcodeField, BitVec.getLsbD_append, BitVec.getLsbD_extractLsb']
      by_cases h8 : i < 8
      · simp [h8]
      · have h1 : i - 8 < 24 := by omega
        have h2 : 8 + (i - 8) = i := by omega
        simp [h1, h2] at hr'
        simp [h8, hr']
    generalize opcodeField w = o at hw
    subst hw
    by_cases h0 : o = 0x00#8; · subst h0; exact .inl ⟨rfl, rfl⟩
    by_cases h1 : o = 0x01#8; · subst h1; exact .inr (.inl ⟨rfl, rfl⟩)
    by_cases h2 : o = 0x02#8; · subst h2; exact .inr (.inr (.inl ⟨rfl, rfl⟩))
    by_cases h3 : o = 0x03#8; · subst h3; exact .inr (.inr (.inr (.inl ⟨rfl, rfl⟩)))
    by_cases h4 : o = 0x04#8; · subst h4; exact .inr (.inr (.inr (.inr (.inl ⟨rfl, rfl⟩))))
    by_cases h5 : o = 0x10#8; · subst h5; exact .inr (.inr (.inr (.inr (.inr (.inl ⟨rfl, rfl⟩)))))
    by_cases h6 : o = 0x11#8; · subst h6; exact .inr (.inr (.inr (.inr (.inr (.inr (.inl ⟨rfl, rfl⟩))))))
    by_cases h7 : o = 0x20#8; · subst h7; exact .inr (.inr (.inr (.inr (.inr (.inr (.inr (.inl ⟨rfl, rfl⟩)))))))
    by_cases h8 : o = 0xFF#8
    · subst h8; exact .inr (.inr (.inr (.inr (.inr (.inr (.inr (.inr (.inl ⟨rfl, rfl⟩))))))))
    have ho : opcodeField (0#24 ++ o : BitVec 32) = o := by
      apply BitVec.eq_of_getLsbD_eq
      intro i hi
      have : 0 + i < 8 := by omega
      simp only [opcodeField, BitVec.getLsbD_extractLsb', BitVec.getLsbD_append, this]
      simp [hi]
    refine .inr (.inr (.inr (.inr (.inr (.inr (.inr (.inr (.inr ⟨?_, ?_⟩))))))))
    · have ho' : (0#24 ++ o : BitVec 32).extractLsb' 0 8 = o := ho
      simp [isCommandWord, definedOpcodes, ho', h0, h1, h2, h3, h4, h5, h6, h7, h8]
    · simp only [decodeCommand, if_pos hr, ho, opcodeMap, List.lookup, beq_false_of_ne h0, beq_false_of_ne h1,
        beq_false_of_ne h2, beq_false_of_ne h3, beq_false_of_ne h4, beq_false_of_ne h5, beq_false_of_ne h6,
        beq_false_of_ne h7, beq_false_of_ne h8]
  · refine .inr (.inr (.inr (.inr (.inr (.inr (.inr (.inr (.inr ⟨?_, ?_⟩))))))))
    · have hr' : ¬ w.extractLsb' 8 24 = 0#24 := hr
      simp [isCommandWord, hr']
    · simp [decodeCommand, hr]

/-- A command word runs at its bus write only if it is SOFT_RESET (R74, R80). -/
theorem runsAtOnce_decodeCommand (w : Word) : runsAtOnce (decodeCommand w) = true ↔ w = 0x000000FF#32 := by
  rcases decodeCommand_cases w with h | h | h | h | h | h | h | h | h | h
  all_goals first
    | (obtain ⟨rfl, h⟩ := h; rw [h]; decide)
    | (obtain ⟨hn, h⟩ := h
       rw [h]
       constructor
       · intro hh; cases hh
       · rintro rfl; exact absurd hn (by decide))

theorem decodeCommand_softReset (w : Word) : decodeCommand w = .softReset ↔ w = 0x000000FF#32 := by
  constructor
  · intro h; rw [← runsAtOnce_decodeCommand, h]; rfl
  · rintro rfl; rfl

@[simp] theorem decodeWrite_cmd (v : Word) : decodeWrite cmdOffset v = .ok (decodeCommand v) := rfl
@[simp] theorem decodeWrite_crcData (v : Word) : decodeWrite crcDataOffset v = .ok (.crcData v) := rfl
@[simp] theorem decodeWrite_status (v : Word) : decodeWrite statusOffset v = .ok (.statusClear v) := rfl

/-- The three ways a bus write decodes to an operation. -/
theorem decodeWrite_ok {off : Off} {v : Word} {i : Instr} (h : decodeWrite off v = .ok i) :
    (off = cmdOffset ∧ i = decodeCommand v) ∨ (off = crcDataOffset ∧ i = .crcData v) ∨
    (off = statusOffset ∧ i = .statusClear v) := by
  unfold decodeWrite at h
  split at h
  · cases h
  · split at h
    · cases h; exact .inl ⟨‹_›, rfl⟩
    · split at h
      · cases h; exact .inr (.inl ⟨‹_›, rfl⟩)
      · split at h
        · cases h; exact .inr (.inr ⟨‹_›, rfl⟩)
        · cases h

/-- A write that is no operation is at none of the three offsets, or misaligned. -/
theorem decodeWrite_error {off : Off} {v : Word} {e : Reject} (h : decodeWrite off v = .error e)
    (ha : off.extractLsb' 0 2 = 0#2) : off ≠ cmdOffset ∧ off ≠ crcDataOffset ∧ off ≠ statusOffset := by
  refine ⟨?_, ?_, ?_⟩ <;> (rintro rfl; cases h)

/-- A write at none of the three offsets is no operation. -/
theorem decodeWrite_none {off : Off} (v : Word) (h1 : off ≠ cmdOffset) (h2 : off ≠ crcDataOffset)
    (h3 : off ≠ statusOffset) : ∃ e, decodeWrite off v = .error e := by
  unfold decodeWrite
  split <;> exact ⟨_, rfl⟩

end Sys2Proof.Machine
end

