-- ==== Sys2Proof/Laws/State.lean ====
section
/-! SUPPORT. What each named update of the state leaves in each field, and in each buffer entry it does not write: all true by
definition, so that no later proof unfolds a record update. -/
namespace Sys2Proof.Machine

variable (s : State)

@[simp] theorem writeBuf_regs (k : Nat) (bs : List Byte) : (s.writeBuf k bs).regs = s.regs := rfl
@[simp] theorem writeBuf_pending (k : Nat) (bs : List Byte) : (s.writeBuf k bs).pending = s.pending := rfl
@[simp] theorem writeBuf_mem (k : Nat) (bs : List Byte) : (s.writeBuf k bs).mem = { s.mem with buf := cellPutAll k bs s.mem.buf } := rfl
@[simp] theorem writeBuf_resetCount (k : Nat) (bs : List Byte) : (s.writeBuf k bs).resetCount = s.resetCount := rfl
@[simp] theorem writeBuf_response (k : Nat) (bs : List Byte) : (s.writeBuf k bs).response = s.response := rfl
@[simp] theorem writeBuf_agenda (k : Nat) (bs : List Byte) : (s.writeBuf k bs).agenda = s.agenda := rfl

@[simp] theorem writeBuf_wordAt (k : Nat) (bs : List Byte) (j : Nat) : (s.writeBuf k bs).wordAt j = s.wordAt j := rfl

@[simp] theorem writeWords_regs (k : Nat) (ws : List Half) : (s.writeWords k ws).regs = s.regs := rfl
@[simp] theorem writeWords_pending (k : Nat) (ws : List Half) : (s.writeWords k ws).pending = s.pending := rfl
@[simp] theorem writeWords_mem (k : Nat) (ws : List Half) : (s.writeWords k ws).mem = { s.mem with words := cellPutAll k ws s.mem.words } := rfl
@[simp] theorem writeWords_resetCount (k : Nat) (ws : List Half) : (s.writeWords k ws).resetCount = s.resetCount := rfl
@[simp] theorem writeWords_response (k : Nat) (ws : List Half) : (s.writeWords k ws).response = s.response := rfl
@[simp] theorem writeWords_agenda (k : Nat) (ws : List Half) : (s.writeWords k ws).agenda = s.agenda := rfl

@[simp] theorem writeWords_bufByte (k : Nat) (ws : List Half) (i : Nat) : (s.writeWords k ws).bufByte i = s.bufByte i := rfl

@[simp] theorem setCrc_regs (c : Half) : (s.setCrc c).regs = { s.regs with crc := c } := rfl
@[simp] theorem setCrc_pending (c : Half) : (s.setCrc c).pending = s.pending := rfl
@[simp] theorem setCrc_mem (c : Half) : (s.setCrc c).mem = s.mem := rfl
@[simp] theorem setCrc_resetCount (c : Half) : (s.setCrc c).resetCount = s.resetCount := rfl
@[simp] theorem setCrc_response (c : Half) : (s.setCrc c).response = s.response := rfl
@[simp] theorem setCrc_agenda (c : Half) : (s.setCrc c).agenda = s.agenda := rfl

@[simp] theorem setCrc_bufByte (c : Half) (i : Nat) : (s.setCrc c).bufByte i = s.bufByte i := rfl
@[simp] theorem setCrc_wordAt (c : Half) (j : Nat) : (s.setCrc c).wordAt j = s.wordAt j := rfl

@[simp] theorem setLen_regs (n : Nat) : (s.setLen n).regs = { s.regs with len := BitVec.ofNat 16 n } := rfl
@[simp] theorem setLen_pending (n : Nat) : (s.setLen n).pending = s.pending := rfl
@[simp] theorem setLen_mem (n : Nat) : (s.setLen n).mem = s.mem := rfl
@[simp] theorem setLen_resetCount (n : Nat) : (s.setLen n).resetCount = s.resetCount := rfl
@[simp] theorem setLen_response (n : Nat) : (s.setLen n).response = s.response := rfl
@[simp] theorem setLen_agenda (n : Nat) : (s.setLen n).agenda = s.agenda := rfl

@[simp] theorem setLen_bufByte (n : Nat) (i : Nat) : (s.setLen n).bufByte i = s.bufByte i := rfl
@[simp] theorem setLen_wordAt (n : Nat) (j : Nat) : (s.setLen n).wordAt j = s.wordAt j := rfl

@[simp] theorem complete_regs (c : ResultCode) : (s.complete c).regs = s.regs.finish c := rfl
@[simp] theorem complete_pending (c : ResultCode) : (s.complete c).pending = none := rfl
@[simp] theorem complete_mem (c : ResultCode) : (s.complete c).mem = s.mem := rfl
@[simp] theorem complete_resetCount (c : ResultCode) : (s.complete c).resetCount = s.resetCount := rfl
@[simp] theorem complete_response (c : ResultCode) : (s.complete c).response = s.response := rfl
@[simp] theorem complete_agenda (c : ResultCode) : (s.complete c).agenda = s.agenda := rfl

@[simp] theorem complete_bufByte (c : ResultCode) (i : Nat) : (s.complete c).bufByte i = s.bufByte i := rfl
@[simp] theorem complete_wordAt (c : ResultCode) (j : Nat) : (s.complete c).wordAt j = s.wordAt j := rfl

@[simp] theorem softReset_regs : s.softReset.regs = Regs.reset := rfl
@[simp] theorem softReset_pending : s.softReset.pending = none := rfl
@[simp] theorem softReset_mem : s.softReset.mem = s.mem := rfl
@[simp] theorem softReset_resetCount : s.softReset.resetCount = s.resetCount := rfl
@[simp] theorem softReset_response : s.softReset.response = s.response := rfl
@[simp] theorem softReset_agenda : s.softReset.agenda = s.agenda := rfl

@[simp] theorem softReset_bufByte (i : Nat) : s.softReset.bufByte i = s.bufByte i := rfl
@[simp] theorem softReset_wordAt (j : Nat) : s.softReset.wordAt j = s.wordAt j := rfl

@[simp] theorem hardReset_regs : s.hardReset.regs = Regs.reset := rfl
@[simp] theorem hardReset_pending : s.hardReset.pending = none := rfl
@[simp] theorem hardReset_mem : s.hardReset.mem = Memory.unwritten := rfl
@[simp] theorem hardReset_resetCount : s.hardReset.resetCount = s.resetCount + 1 := rfl
@[simp] theorem hardReset_response : s.hardReset.response = none := rfl
@[simp] theorem hardReset_agenda : s.hardReset.agenda = s.agenda := rfl

@[simp] theorem respond_regs (r : BusResponse) : (s.respond r).regs = s.regs := rfl
@[simp] theorem respond_pending (r : BusResponse) : (s.respond r).pending = s.pending := rfl
@[simp] theorem respond_mem (r : BusResponse) : (s.respond r).mem = s.mem := rfl
@[simp] theorem respond_resetCount (r : BusResponse) : (s.respond r).resetCount = s.resetCount := rfl
@[simp] theorem respond_response (r : BusResponse) : (s.respond r).response = some r := rfl
@[simp] theorem respond_agenda (r : BusResponse) : (s.respond r).agenda = s.agenda := rfl

@[simp] theorem respond_bufByte (r : BusResponse) (i : Nat) : (s.respond r).bufByte i = s.bufByte i := rfl
@[simp] theorem respond_wordAt (r : BusResponse) (j : Nat) : (s.respond r).wordAt j = s.wordAt j := rfl

@[simp] theorem dropWrite_regs : s.dropWrite.regs = { s.regs with werr := true } := rfl
@[simp] theorem dropWrite_pending : s.dropWrite.pending = s.pending := rfl
@[simp] theorem dropWrite_mem : s.dropWrite.mem = s.mem := rfl
@[simp] theorem dropWrite_resetCount : s.dropWrite.resetCount = s.resetCount := rfl
@[simp] theorem dropWrite_response : s.dropWrite.response = s.response := rfl
@[simp] theorem dropWrite_agenda : s.dropWrite.agenda = s.agenda := rfl

@[simp] theorem dropWrite_bufByte (i : Nat) : s.dropWrite.bufByte i = s.bufByte i := rfl
@[simp] theorem dropWrite_wordAt (j : Nat) : s.dropWrite.wordAt j = s.wordAt j := rfl

@[simp] theorem accept_regs (w : Word) : (s.accept w).regs = { s.regs with busy := true, done := false, err := false } := rfl
@[simp] theorem accept_pending (w : Word) : (s.accept w).pending = some w := rfl
@[simp] theorem accept_mem (w : Word) : (s.accept w).mem = s.mem := rfl
@[simp] theorem accept_resetCount (w : Word) : (s.accept w).resetCount = s.resetCount := rfl
@[simp] theorem accept_response (w : Word) : (s.accept w).response = s.response := rfl
@[simp] theorem accept_agenda (w : Word) : (s.accept w).agenda = s.agenda := rfl

@[simp] theorem accept_bufByte (w : Word) (i : Nat) : (s.accept w).bufByte i = s.bufByte i := rfl
@[simp] theorem accept_wordAt (w : Word) (j : Nat) : (s.accept w).wordAt j = s.wordAt j := rfl

@[simp] theorem setReplyHead_regs (u f : Byte) : (s.setReplyHead u f).regs = { s.regs with rspUnit := u, rspFunc := f } := rfl
@[simp] theorem setReplyHead_pending (u f : Byte) : (s.setReplyHead u f).pending = s.pending := rfl
@[simp] theorem setReplyHead_mem (u f : Byte) : (s.setReplyHead u f).mem = s.mem := rfl
@[simp] theorem setReplyHead_resetCount (u f : Byte) : (s.setReplyHead u f).resetCount = s.resetCount := rfl
@[simp] theorem setReplyHead_response (u f : Byte) : (s.setReplyHead u f).response = s.response := rfl
@[simp] theorem setReplyHead_agenda (u f : Byte) : (s.setReplyHead u f).agenda = s.agenda := rfl

@[simp] theorem setReplyHead_bufByte (u f : Byte) (i : Nat) : (s.setReplyHead u f).bufByte i = s.bufByte i := rfl
@[simp] theorem setReplyHead_wordAt (u f : Byte) (j : Nat) : (s.setReplyHead u f).wordAt j = s.wordAt j := rfl

@[simp] theorem setReplyExc_regs (e : Byte) : (s.setReplyExc e).regs = { s.regs with rspExc := e } := rfl
@[simp] theorem setReplyExc_pending (e : Byte) : (s.setReplyExc e).pending = s.pending := rfl
@[simp] theorem setReplyExc_mem (e : Byte) : (s.setReplyExc e).mem = s.mem := rfl
@[simp] theorem setReplyExc_resetCount (e : Byte) : (s.setReplyExc e).resetCount = s.resetCount := rfl
@[simp] theorem setReplyExc_response (e : Byte) : (s.setReplyExc e).response = s.response := rfl
@[simp] theorem setReplyExc_agenda (e : Byte) : (s.setReplyExc e).agenda = s.agenda := rfl

@[simp] theorem setReplyExc_bufByte (e : Byte) (i : Nat) : (s.setReplyExc e).bufByte i = s.bufByte i := rfl
@[simp] theorem setReplyExc_wordAt (e : Byte) (j : Nat) : (s.setReplyExc e).wordAt j = s.wordAt j := rfl

@[simp] theorem commitReply_regs (u f : Byte) (t : Half) (y : Layout) : (s.commitReply u f t y).regs = { s.regs with
      rspUnit := u, rspFunc := f, rspExc := 0#8, rspAddr := y.addr, rspQty := y.qty, rspTxn := t,
      nwords := BitVec.ofNat 8 y.n } := rfl
@[simp] theorem commitReply_pending (u f : Byte) (t : Half) (y : Layout) : (s.commitReply u f t y).pending = s.pending := rfl
@[simp] theorem commitReply_mem (u f : Byte) (t : Half) (y : Layout) : (s.commitReply u f t y).mem = { s.mem with words := cellPutAll 0 (s.replyWords y) s.mem.words } := rfl
@[simp] theorem commitReply_resetCount (u f : Byte) (t : Half) (y : Layout) : (s.commitReply u f t y).resetCount = s.resetCount := rfl
@[simp] theorem commitReply_response (u f : Byte) (t : Half) (y : Layout) : (s.commitReply u f t y).response = s.response := rfl
@[simp] theorem commitReply_agenda (u f : Byte) (t : Half) (y : Layout) : (s.commitReply u f t y).agenda = s.agenda := rfl

@[simp] theorem commitReply_bufByte (u f : Byte) (t : Half) (y : Layout) (i : Nat) : (s.commitReply u f t y).bufByte i = s.bufByte i := rfl

end Sys2Proof.Machine
end

