-- ==== Sys2Proof/Laws/Memory.lean ====
section
/-! SUPPORT. The laws of the buffers: what a read sees after a write, that every write keeps the canonical form, and what a
slice of BUF holds. -/
namespace Sys2Proof.Machine

/-! ## Sparse lists -/

@[simp] theorem cellGet_cellPut_same {α : Type} (i : Nat) (x : α) (cells : List (Nat × α)) :
    cellGet i (cellPut i x cells) = some x := by
  induction cells with
  | nil => simp [cellPut, cellGet]
  | cons p rest ih =>
    obtain ⟨j, y⟩ := p
    simp only [cellPut]
    split
    · simp [cellGet]
    · split
      · simp [cellGet]
      · simp only [cellGet]
        split
        · contradiction
        · exact ih

theorem cellGet_cellPut_other {α : Type} {k i : Nat} (h : k ≠ i) (x : α) (cells : List (Nat × α)) :
    cellGet k (cellPut i x cells) = cellGet k cells := by
  induction cells with
  | nil => simp [cellPut, cellGet, h]
  | cons p rest ih =>
    obtain ⟨j, y⟩ := p
    simp only [cellPut]
    split
    · simp [cellGet, h]
    · split
      · rename_i hij
        subst hij
        simp [cellGet, h]
      · simp only [cellGet, ih]

/-- A read after a write of a run of values: the written value inside the run, the old one outside. -/
theorem cellGet_cellPutAll {α : Type} (k : Nat) (xs : List α) :
    ∀ (i : Nat) (cells : List (Nat × α)),
      cellGet k (cellPutAll i xs cells) =
        if i ≤ k ∧ k < i + xs.length then xs[k - i]? else cellGet k cells := by
  induction xs with
  | nil =>
    intro i cells
    have h0 : ¬ (i ≤ k ∧ k < i + ([] : List α).length) := by simp only [List.length_nil]; omega
    simp only [cellPutAll, if_neg h0]
  | cons x xs ih =>
    intro i cells
    simp only [cellPutAll, ih, List.length_cons]
    by_cases hki : k = i
    · subst hki
      rw [if_neg (by omega), if_pos (by omega), cellGet_cellPut_same, Nat.sub_self]
      rfl
    · rw [cellGet_cellPut_other hki]
      by_cases hin : i + 1 ≤ k ∧ k < i + 1 + xs.length
      · have h2 : i ≤ k ∧ k < i + (xs.length + 1) := by omega
        have h3 : k - i = (k - (i + 1)) + 1 := by omega
        rw [if_pos hin, if_pos h2, h3]
        rfl
      · rw [if_neg hin, if_neg (by omega)]

theorem cellsWf_mono {α : Type} {limit low low' : Nat} (hl : low' ≤ low) :
    ∀ {cells : List (Nat × α)}, cellsWf limit low cells = true → cellsWf limit low' cells = true
  | [], _ => rfl
  | (j, _) :: rest, h => by
    simp only [cellsWf, Bool.and_eq_true, decide_eq_true_eq] at h ⊢
    exact ⟨⟨by omega, h.1.2⟩, h.2⟩

/-- Writing one entry inside the bounds keeps the canonical form. -/
theorem cellsWf_cellPut {α : Type} {limit i : Nat} (hi : i < limit) (x : α) :
    ∀ {low : Nat} {cells : List (Nat × α)}, low ≤ i →
      cellsWf limit low cells = true → cellsWf limit low (cellPut i x cells) = true
  | low, [], hl, _ => by simp [cellPut, cellsWf, hl, hi]
  | low, (j, y) :: rest, hl, h => by
    simp only [cellsWf, Bool.and_eq_true, decide_eq_true_eq] at h
    simp only [cellPut]
    split
    · rename_i hij
      simp only [cellsWf, Bool.and_eq_true, decide_eq_true_eq]
      exact ⟨⟨hl, hi⟩, ⟨⟨by omega, h.1.2⟩, h.2⟩⟩
    · split
      · rename_i hij
        subst hij
        simp only [cellsWf, Bool.and_eq_true, decide_eq_true_eq]
        exact h
      · simp only [cellsWf, Bool.and_eq_true, decide_eq_true_eq]
        exact ⟨h.1, cellsWf_cellPut hi x (by omega) h.2⟩

/-- Writing a run inside the bounds keeps the canonical form. -/
theorem cellsWf_cellPutAll {α : Type} {limit : Nat} :
    ∀ (xs : List α) {i : Nat} {cells : List (Nat × α)}, i + xs.length ≤ limit →
      cellsWf limit 0 cells = true → cellsWf limit 0 (cellPutAll i xs cells) = true
  | [], _, _, _, h => h
  | x :: xs, i, cells, hb, h => by
    simp only [List.length_cons] at hb
    exact cellsWf_cellPutAll xs (by omega) (cellsWf_cellPut (by omega) x (by omega) h)

/-! ## BUF and WORDS -/

/-- What BUF[k] reads as after a run is written at `i`. -/
theorem bufByte_writeBuf (s : State) (i : Nat) (bs : List Byte) (k : Nat) :
    (s.writeBuf i bs).bufByte k = if h : i ≤ k ∧ k < i + bs.length then bs[k - i] else s.bufByte k := by
  simp only [State.bufByte, writeBuf_mem, writeBuf_resetCount, cellGet_cellPutAll]
  by_cases h : i ≤ k ∧ k < i + bs.length
  · have h3 : k - i < bs.length := by omega
    simp [h, List.getElem?_eq_getElem h3]
  · simp [h]

/-- What WORDS[k] reads as after a run is written at `j`. -/
theorem wordAt_writeWords (s : State) (j : Nat) (ws : List Half) (k : Nat) :
    (s.writeWords j ws).wordAt k = if h : j ≤ k ∧ k < j + ws.length then ws[k - j] else s.wordAt k := by
  simp only [State.wordAt, writeWords_mem, writeWords_resetCount, cellGet_cellPutAll]
  by_cases h : j ≤ k ∧ k < j + ws.length
  · have h3 : k - j < ws.length := by omega
    simp [h, List.getElem?_eq_getElem h3]
  · simp [h]

/-- BUF and WORDS read alike in two states with the same buffers and reset count. -/
theorem bufByte_congr {s t : State} (hm : t.mem.buf = s.mem.buf) (hr : t.resetCount = s.resetCount) (i : Nat) :
    t.bufByte i = s.bufByte i := by
  simp only [State.bufByte, hm, hr]

theorem wordAt_congr {s t : State} (hm : t.mem.words = s.mem.words) (hr : t.resetCount = s.resetCount) (j : Nat) :
    t.wordAt j = s.wordAt j := by
  simp only [State.wordAt, hm, hr]

theorem writeBuf_wf {s : State} (h : s.mem.wf = true) {i : Nat} {bs : List Byte}
    (hb : i + bs.length ≤ Config.frameBufBytes) : (s.writeBuf i bs).mem.wf = true := by
  simp only [Memory.wf, Bool.and_eq_true, writeBuf_mem] at h ⊢
  exact ⟨cellsWf_cellPutAll bs hb h.1, h.2⟩

theorem writeWords_wf {s : State} (h : s.mem.wf = true) {j : Nat} {ws : List Half}
    (hb : j + ws.length ≤ Config.wordBufEntries) : (s.writeWords j ws).mem.wf = true := by
  simp only [Memory.wf, Bool.and_eq_true, writeWords_mem] at h ⊢
  exact ⟨h.1, cellsWf_cellPutAll ws hb h.2⟩

theorem unwritten_wf : Memory.unwritten.wf = true := rfl

/-! ## Slices of BUF -/

@[simp] theorem bufSlice_length (s : State) (a b : Nat) : (s.bufSlice a b).length = b - a := by
  simp [State.bufSlice]

theorem bufSlice_getElem (s : State) (a b k : Nat) (h : k < (s.bufSlice a b).length) :
    (s.bufSlice a b)[k] = s.bufByte (a + k) := by
  simp [State.bufSlice]

/-- A slice from 0 is any list whose bytes BUF holds. -/
theorem bufSlice_eq {s : State} {n : Nat} {f : List Byte} (hn : n = f.length)
    (h : ∀ k (hk : k < f.length), s.bufByte k = f[k]) : s.bufSlice 0 n = f := by
  apply List.ext_getElem
  · simp [hn]
  · intro k hk hk'
    rw [bufSlice_getElem, Nat.zero_add, h k hk']

theorem bufSlice_congr {s t : State} {a b : Nat} (h : ∀ k, a ≤ k → k < b → t.bufByte k = s.bufByte k) :
    t.bufSlice a b = s.bufSlice a b := by
  apply List.ext_getElem
  · simp
  · intro k hk hk'
    rw [bufSlice_getElem, bufSlice_getElem]
    simp at hk
    exact h _ (by omega) (by omega)

/-! ## 16-bit fields -/

@[simp] theorem be16_hi8_lo8 (v : Half) : be16 (hi8 v) (lo8 v) = v := by
  apply BitVec.eq_of_getLsbD_eq
  intro i hi
  simp only [be16, hi8, lo8, BitVec.getLsbD_append, BitVec.getLsbD_extractLsb']
  split
  · rename_i h
    simp [h]
  · rename_i h
    have h1 : i - 8 < 8 := by omega
    have h2 : 8 + (i - 8) = i := by omega
    simp [h1, h2]

@[simp] theorem hi8_be16 (a b : Byte) : hi8 (be16 a b) = a := by
  apply BitVec.eq_of_getLsbD_eq
  intro i hi
  have h1 : ¬ (8 + i < 8) := by omega
  simp only [be16, hi8, BitVec.getLsbD_extractLsb', BitVec.getLsbD_append, h1]
  simp [hi]

@[simp] theorem lo8_be16 (a b : Byte) : lo8 (be16 a b) = b := by
  apply BitVec.eq_of_getLsbD_eq
  intro i hi
  have h1 : 0 + i < 8 := by omega
  simp only [be16, lo8, BitVec.getLsbD_extractLsb', BitVec.getLsbD_append, h1]
  simp [hi]

@[simp] theorem wordBytes_length (ws : List Half) : (wordBytes ws).length = 2 * ws.length := by
  induction ws with
  | nil => rfl
  | cons w ws ih => simp only [wordBytes, List.flatMap_cons, List.length_append] at ih ⊢; simp [ih]; omega

end Sys2Proof.Machine
end

