-- ==== Sys2Proof/Laws/Commands.lean ====
section
/-! SUPPORT. What a command's completion can do, said once (40_command_control.md R77, 20_memory.md R56). -/
namespace Sys2Proof.Machine

/-- What a command body may have changed in `s'` from `s`: CRC, LEN, NWORDS, the RSP_* registers and buffer entries inside
their bounds (30_encoding.md R61). -/
structure Committed (s s' : State) : Prop where
  regs : s'.regs = { s.regs with
    crc := s'.regs.crc, len := s'.regs.len, nwords := s'.regs.nwords, rspUnit := s'.regs.rspUnit,
    rspFunc := s'.regs.rspFunc, rspExc := s'.regs.rspExc, rspAddr := s'.regs.rspAddr, rspQty := s'.regs.rspQty,
    rspTxn := s'.regs.rspTxn }
  pending : s'.pending = s.pending
  resetCount : s'.resetCount = s.resetCount
  response : s'.response = s.response
  agenda : s'.agenda = s.agenda
  mem_wf : s.mem.wf = true → s'.mem.wf = true

theorem Committed.refl (s : State) : Committed s s := ⟨rfl, rfl, rfl, rfl, rfl, id⟩

@[simp] theorem rtuFrame_length (p : List Byte) : (rtuFrame p).length = p.length + 2 := by simp [rtuFrame]

@[simp] theorem mbapFrame_length (t : Half) (p : List Byte) : (mbapFrame t p).length = 6 + p.length := by
  simp [mbapFrame]; omega

@[simp] theorem readRequest_length (u f : Byte) (a n : Half) : (readRequest u f a n).length = 6 := rfl

@[simp] theorem writeRequest_length (u f : Byte) (a : Half) (vs : List Half) :
    (writeRequest u f a vs).length = 7 + 2 * vs.length := by
  simp [writeRequest]; omega

@[simp] theorem readReply_length (u f : Byte) (ws : List Half) : (readReply u f ws).length = 3 + 2 * ws.length := by
  simp [readReply]; omega

@[simp] theorem wordsUpTo_length (s : State) (n : Nat) : (s.wordsUpTo n).length = n := by simp [State.wordsUpTo]

/-- Emit writes inside BUF when the frame fits. -/
theorem emit_committed (s : State) (p : List Byte) (hp : 6 + p.length ≤ Config.frameBufBytes) :
    Committed s (s.emit p) := by
  unfold State.emit
  cases s.regs.mode
  · refine ⟨rfl, rfl, rfl, rfl, rfl, fun h => ?_⟩
    exact writeBuf_wf (s := s) h (by simp; omega)
  · refine ⟨rfl, rfl, rfl, rfl, rfl, fun h => ?_⟩
    exact writeBuf_wf (s := s) h (by simp; omega)

/-- The success commit of DECODE writes inside WORDS: a byte count is at most 255. -/
theorem commitReply_committed (s : State) (u f : Byte) (t : Half) (y : Layout) (hn : y.n < 128) :
    Committed s (s.commitReply u f t y) := by
  refine ⟨rfl, rfl, rfl, rfl, rfl, fun h => ?_⟩
  exact writeWords_wf (s := s) h (by simp [State.replyWords, Config.wordBufEntries]; omega)

theorem writeLayout_bound {s : State} {o b : Nat} {y : Layout} (h : s.writeLayout o b = .ok y) :
    y.n < 128 := by
  have hb : (s.bufByte (o + 6)).toNat < 256 := (s.bufByte (o + 6)).isLt
  simp only [State.writeLayout] at h
  split at h; · cases h
  split at h; · cases h; simp
  split at h; · cases h
  split at h; · cases h
  split at h; · cases h
  split at h; · cases h
  cases h
  simp only; omega

theorem readLayout_bound {s : State} {o b : Nat} {y : Layout} (h : s.readLayout o b = .ok y) :
    y.n < 128 := by
  have hb : (s.bufByte (o + 2)).toNat < 256 := (s.bufByte (o + 2)).isLt
  simp only [State.readLayout] at h
  split at h; · cases h
  split at h; · cases h
  split at h; · cases h
  split at h; · cases h
  cases h
  simp only; omega

/-- The ends of DECODE once the frame is taken apart (43_decode.md R99, S3 to S8). -/
theorem decodeBody_cases (x : Framed) (s : State) :
    (∃ code, (code = .shortFrame ∨ code = .longFrame ∨ code = .malformed) ∧ s.decodeBody x = (code, s)) ∨
    (s.decodeBody x = (.exceptionResponse,
      (s.setReplyHead (s.bufByte x.o) (s.bufByte (x.o + 1))).setReplyExc (s.bufByte (x.o + 2)))) ∨
    (s.decodeBody x = (.unexpectedFunction, s.setReplyHead (s.bufByte x.o) (s.bufByte (x.o + 1)))) ∨
    (∃ y : Layout, y.n < 128 ∧
      s.decodeBody x = (.ok, s.commitReply (s.bufByte x.o) (s.bufByte (x.o + 1)) x.t y)) := by
  unfold State.decodeBody
  simp only
  split
  · split; · exact .inl ⟨_, .inl rfl, rfl⟩
    split; · exact .inl ⟨_, .inr (.inl rfl), rfl⟩
    exact .inr (.inl rfl)
  · split; · exact .inr (.inr (.inl rfl))
    split
    · rename_i code h
      refine .inl ⟨code, ?_, rfl⟩
      split at h
      · simp only [State.writeLayout] at h
        split at h; · cases h; simp
        split at h; · cases h
        split at h; · cases h; simp
        split at h; · cases h; simp
        split at h; · cases h; simp
        split at h; · cases h; simp
        cases h
      · simp only [State.readLayout] at h
        split at h; · cases h; simp
        split at h; · cases h; simp
        split at h; · cases h; simp
        split at h; · cases h; simp
        cases h
    · rename_i y h
      refine .inr (.inr (.inr ⟨y, ?_, rfl⟩))
      split at h
      · exact writeLayout_bound h
      · exact readLayout_bound h

/-- The failures of stages S1 and S2. -/
theorem framed_error {s : State} {code : ResultCode} (h : s.framed = .error code) :
    code = .invalidArgument ∨ code = .shortFrame ∨ code = .checksumMismatch ∨ code = .malformed ∨
    code = .longFrame ∨ code = .txnMismatch := by
  unfold State.framed at h
  simp only at h
  split at h
  · cases h; simp
  · split at h
    · simp only [State.framedRtu] at h
      split at h; · cases h; simp
      split at h; · cases h; simp
      cases h
    · simp only [State.framedMbap] at h
      split at h; · cases h; simp
      split at h; · cases h; simp
      split at h; · cases h; simp
      split at h; · cases h; simp
      split at h; · cases h; simp
      cases h

/-- What stages S1 and S2 answer on a frame they accept. -/
theorem framed_ok {s : State} {x : Framed} (h : s.framed = .ok x) :
    s.regs.len.toNat ≤ Config.frameBufBytes ∧
    ((s.regs.mode = .rtu ∧ 4 ≤ s.regs.len.toNat ∧ x = ⟨0, s.regs.len.toNat - 2, 0#16⟩ ∧
        crc16 (s.bufSlice 0 (s.regs.len.toNat - 2)) = s.storedCrc s.regs.len.toNat) ∨
     (s.regs.mode = .mbap ∧ 8 ≤ s.regs.len.toNat ∧ x = ⟨6, s.regs.len.toNat - 6, s.regs.txn⟩)) := by
  unfold State.framed at h
  simp only at h
  split at h
  · cases h
  · rename_i hl
    refine ⟨by omega, ?_⟩
    split at h
    · rename_i hm
      simp only [State.framedRtu] at h
      split at h; · cases h
      split at h; · cases h
      rename_i h4 hc
      cases h
      exact .inl ⟨hm, by omega, rfl, Classical.not_not.mp hc⟩
    · rename_i hm
      simp only [State.framedMbap] at h
      split at h; · cases h
      split at h; · cases h
      split at h; · cases h
      split at h; · cases h
      split at h; · cases h
      rename_i h8 _ _ _ ht
      cases h
      exact .inr ⟨hm, by omega, by rw [Classical.not_not.mp ht]⟩

/-- The ends of DECODE (R99): a failure that writes nothing, EXCEPTION_RESPONSE, UNEXPECTED_FUNCTION, or success. -/
theorem runDecode_cases (s : State) :
    (∃ code : ResultCode, code.toByte.toNat ≤ 8 ∧ code ≠ .ok ∧ code ≠ .exceptionResponse ∧
      code ≠ .unexpectedFunction ∧ runDecode s = (code, s)) ∨
    (∃ u f e, runDecode s = (.exceptionResponse, (s.setReplyHead u f).setReplyExc e)) ∨
    (∃ u f, runDecode s = (.unexpectedFunction, s.setReplyHead u f)) ∨
    (∃ u f t y, y.n < 128 ∧ runDecode s = (.ok, s.commitReply u f t y)) := by
  unfold runDecode
  split
  · rename_i code h
    refine .inl ⟨code, ?_⟩
    rcases framed_error h with rfl | rfl | rfl | rfl | rfl | rfl <;> simp [ResultCode.toByte]
  · rename_i x h
    rcases decodeBody_cases x s with ⟨code, hc, h⟩ | h | h | ⟨y, hy, h⟩
    · refine .inl ⟨code, ?_⟩
      rcases hc with rfl | rfl | rfl <;> simp [ResultCode.toByte, h]
    · exact .inr (.inl ⟨_, _, _, h⟩)
    · exact .inr (.inr (.inl ⟨_, _, h⟩))
    · exact .inr (.inr (.inr ⟨_, _, _, y, hy, h⟩))

theorem runDecode_committed (s : State) : Committed s (runDecode s).2 := by
  rcases runDecode_cases s with ⟨_, _, _, _, _, h⟩ | ⟨u, f, e, h⟩ | ⟨u, f, h⟩ | ⟨u, f, t, y, hy, h⟩ <;> rw [h]
  · exact Committed.refl s
  · exact ⟨rfl, rfl, rfl, rfl, rfl, id⟩
  · exact ⟨rfl, rfl, rfl, rfl, rfl, id⟩
  · exact commitReply_committed s u f t y hy

theorem setCrc_committed (s : State) (c : Half) : Committed s (s.setCrc c) := ⟨rfl, rfl, rfl, rfl, rfl, id⟩

theorem runCrcBuf_committed (s : State) : Committed s (runCrcBuf s).2 := by
  unfold runCrcBuf
  simp only
  split
  · exact Committed.refl s
  · exact setCrc_committed s _

theorem runCrcCheck_committed (s : State) : Committed s (runCrcCheck s).2 := by
  unfold runCrcCheck
  simp only
  split; · exact Committed.refl s
  split; · exact Committed.refl s
  split
  · exact setCrc_committed s _
  · exact setCrc_committed s _

theorem runCrcAppend_committed (s : State) : Committed s (runCrcAppend s).2 := by
  unfold runCrcAppend
  simp only
  split
  · exact Committed.refl s
  · rename_i hl
    refine ⟨rfl, rfl, rfl, rfl, rfl, fun h => ?_⟩
    exact writeBuf_wf (s := s) h (by simp only [Config.frameBufBytes] at hl ⊢; simp; omega)

theorem runEncRead_committed (s : State) : Committed s (runEncRead s).2 := by
  unfold runEncRead
  simp only
  split
  · exact Committed.refl s
  · exact emit_committed s _ (by simp [Config.frameBufBytes])

theorem runEncWrite_committed (s : State) : Committed s (runEncWrite s).2 := by
  unfold runEncWrite
  simp only
  split
  · exact Committed.refl s
  · rename_i hn
    refine emit_committed s _ ?_
    simp only [Config.maxWriteRegs, Config.frameBufBytes, writeRequest_length, wordsUpTo_length] at hn ⊢
    omega

/-- Every command completes: with a code, and with no write beyond `Committed` (R77). -/
theorem exec_command {i : Instr} (hi : runsAtOnce i = false) (s : State) :
    ∃ code s', exec i s = .next (s'.complete code) ∧ Committed s s' := by
  cases i with
  | nop => exact ⟨_, _, rfl, Committed.refl s⟩
  | crcInit => exact ⟨_, _, rfl, setCrc_committed s _⟩
  | crcBuf => exact ⟨_, _, rfl, runCrcBuf_committed s⟩
  | crcCheck => exact ⟨_, _, rfl, runCrcCheck_committed s⟩
  | crcAppend => exact ⟨_, _, rfl, runCrcAppend_committed s⟩
  | encRead => exact ⟨_, _, rfl, runEncRead_committed s⟩
  | encWrite => exact ⟨_, _, rfl, runEncWrite_committed s⟩
  | decode => exact ⟨_, _, rfl, runDecode_committed s⟩
  | illegal w => exact ⟨_, _, rfl, Committed.refl s⟩
  | softReset => cases hi
  | crcData v => cases hi
  | statusClear v => cases hi

theorem toByte_le (code : ResultCode) : code.toByte.toNat ≤ 9 := by cases code <;> decide

theorem toByte_eq_zero (code : ResultCode) : code.toByte = 0#8 ↔ code = .ok := by cases code <;> decide

theorem err_toByte (code : ResultCode) : (code != .ok) = (code.toByte != 0#8) := by cases code <;> decide

end Sys2Proof.Machine
end

