-- ==== Sys2Proof/Laws/Turns.lean ====
section
/-! SUPPORT. What each agent's turn can do, said once, and that a good state stays good (20_memory.md R46, R52). -/
namespace Sys2Proof.Machine

/-! ## The step by its next turn -/

theorem step_nil {s : State} (h : s.agenda = []) : step s = engineTurn s := by
  simp only [step, takeTurn, h]

@[simp] theorem step_engine (s : State) (rest : List Turn) :
    step { s with agenda := .engine :: rest } = engineTurn { s with agenda := rest } := rfl

@[simp] theorem step_hardReset (s : State) (rest : List Turn) :
    step { s with agenda := .hardReset :: rest } = .next { s with agenda := rest }.hardReset := rfl

@[simp] theorem step_facing (s : State) (a : Access) (rest : List Turn) :
    step (s.facing a rest) = hostTurn a { s with agenda := rest } := rfl

/-- While BUSY the engine's turn runs the command in PENDING (R77). -/
theorem engineTurn_busy {s : State} {w : Word} (hb : s.regs.busy = true) (hp : s.pending = some w) :
    engineTurn s = exec (decodeCommand w) s := by
  unfold engineTurn
  rw [if_pos hb]
  split
  · rename_i w' h
    rw [hp] at h; cases h; rfl
  · rename_i h
    rw [hp] at h; cases h

theorem engineTurn_idle {s : State} (hb : s.regs.busy = false) : engineTurn s = .next s := by
  simp [engineTurn, hb]

/-! ## Accesses -/

/-- An offset with nonzero low bits names nothing (R44). -/
theorem targetOf_misaligned {off : Off} (h : off.toNat % 4 ≠ 0) : targetOf off = none := by
  simp [targetOf, h]

theorem aligned_iff (off : Off) : off.extractLsb' 0 2 = 0#2 ↔ off.toNat % 4 = 0 := by
  rw [← BitVec.toNat_inj]
  simp [BitVec.extractLsb'_toNat]

theorem legal_iff (a : Access) :
    a.legal = true ↔ a.size = 4 ∧ a.off.toNat % 4 = 0 ∧ a.lanes = 0xF#4 := by
  simp [Access.legal, aligned_iff, and_assoc]

theorem legal_write {a : Access} {v : Word} (h : a.legal = true) (hop : a.op = .write v) :
    a = .memWrite a.off v := by
  obtain ⟨h1, _, h3⟩ := (legal_iff a).mp h
  obtain ⟨off, size, lanes, op⟩ := a
  simp only at h1 h3 hop
  simp [Access.memWrite, h1, h3, hop]

/-- What one host access can do (R44 to R46): it is answered with an error; it is a read; it is SOFT_RESET, a CRC_DATA or a
STATUS write run at once; it issues a command; or it is a store. -/
theorem hostTurn_cases (a : Access) (s : State) :
    (hostTurn a s = .next (s.respond (busError a.op))) ∨
    (∃ t, a.op = .read ∧ hostTurn a s = .next (s.respond (.read .okay (s.readTarget t)))) ∨
    (∃ v, a = .memWrite cmdOffset v ∧ v = 0x000000FF#32 ∧
      hostTurn a s = .next (s.respond (.written .okay)).softReset) ∨
    (∃ v, a = .memWrite crcDataOffset v ∧ hostTurn a s = execCrcData v (s.respond (.written .okay))) ∨
    (∃ v, a = .memWrite statusOffset v ∧ hostTurn a s = execStatusClear v (s.respond (.written .okay))) ∨
    (∃ v, a = .memWrite cmdOffset v ∧ v ≠ 0x000000FF#32 ∧
      hostTurn a s = .next ((s.respond (.written .okay)).issue v)) ∨
    (∃ v t, a = .memWrite a.off v ∧ targetOf a.off = some t ∧ a.off ≠ cmdOffset ∧ a.off ≠ crcDataOffset ∧
      a.off ≠ statusOffset ∧ hostTurn a s = .next ((s.respond (.written .okay)).busStore t v)) := by
  by_cases hl : a.legal = true
  · cases ht : targetOf a.off with
    | none => exact .inl (by simp [hostTurn, hl, ht])
    | some t =>
      cases hop : a.op with
      | read => exact .inr (.inl ⟨t, rfl, by simp [hostTurn, hl, ht, hop]⟩)
      | write v =>
        have ha := legal_write hl hop
        have hw : hostTurn a s = hostWrite a.off t v (s.respond (.written .okay)) := by
          simp [hostTurn, hl, ht, hop]
        have hal : a.off.extractLsb' 0 2 = 0#2 := (aligned_iff _).mpr ((legal_iff a).mp hl).2.1
        rw [hw]
        cases hd : decodeWrite a.off v with
        | ok i =>
          simp only [hostWrite, hd]
          rcases decodeWrite_ok hd with ⟨ho, hi⟩ | ⟨ho, hi⟩ | ⟨ho, hi⟩
          · rw [ho] at ha
            by_cases hv : v = 0x000000FF#32
            · refine .inr (.inr (.inl ⟨v, ha, hv, ?_⟩))
              subst hv hi; rfl
            · refine .inr (.inr (.inr (.inr (.inr (.inl ⟨v, ha, hv, ?_⟩)))))
              have : runsAtOnce i = false := by
                rw [hi, Bool.eq_false_iff, Ne, runsAtOnce_decodeCommand]; exact hv
              simp [this]
          · rw [ho] at ha
            exact .inr (.inr (.inr (.inl ⟨v, ha, by subst hi; rfl⟩)))
          · rw [ho] at ha
            exact .inr (.inr (.inr (.inr (.inl ⟨v, ha, by subst hi; rfl⟩))))
        | error e =>
          obtain ⟨h1, h2, h3⟩ := decodeWrite_error hd hal
          exact .inr (.inr (.inr (.inr (.inr (.inr ⟨v, t, ha, rfl, h1, h2, h3, by simp [hostWrite, hd]⟩)))))
  · exact .inl (by simp [hostTurn, hl])

/-! ## Targets -/

/-- A mapped buffer offset is inside its buffer (R37, R38, R45). -/
theorem targetOf_byte {off : Off} {i : Nat} (h : targetOf off = some (.byte i)) : i < Config.frameBufBytes := by
  unfold targetOf at h
  split at h; · cases h
  split at h; · simp at h
  split at h
  · split at h
    · cases h; assumption
    · cases h
  · split at h <;> cases h

theorem targetOf_word {off : Off} {j : Nat} (h : targetOf off = some (.word j)) : j < Config.wordBufEntries := by
  unfold targetOf at h
  split at h; · cases h
  split at h; · simp at h
  split at h
  · split at h <;> cases h
  · split at h
    · cases h; assumption
    · cases h

/-- A store keeps the canonical form of the buffers. -/
theorem storeTarget_wf {s : State} {off : Off} {t : Target} (ht : targetOf off = some t) (v : Word)
    (h : s.mem.wf = true) : (s.storeTarget v t).mem.wf = true := by
  cases t with
  | reg r => exact h
  | byte i =>
    have := targetOf_byte ht
    exact writeBuf_wf h (by simp; omega)
  | word j =>
    have := targetOf_word ht
    exact writeWords_wf h (by simp; omega)

/-- A register store writes no flag, no result register and no WERR. -/
theorem store_keeps (v : Word) (r : Regs) (x : Reg) :
    (r.store v x).busy = r.busy ∧ (r.store v x).done = r.done ∧ (r.store v x).err = r.err ∧
    (r.store v x).werr = r.werr ∧ (r.store v x).errcode = r.errcode ∧ (r.store v x).rspUnit = r.rspUnit ∧
    (r.store v x).rspFunc = r.rspFunc ∧ (r.store v x).rspExc = r.rspExc ∧ (r.store v x).rspAddr = r.rspAddr ∧
    (r.store v x).rspQty = r.rspQty ∧ (r.store v x).rspTxn = r.rspTxn := by
  cases x <;> simp [Regs.store]

/-- A store leaves every field but the registers and the buffers, and of the registers the flags and results. -/
theorem storeTarget_keeps (v : Word) (s : State) (t : Target) :
    (s.storeTarget v t).pending = s.pending ∧ (s.storeTarget v t).resetCount = s.resetCount ∧
    (s.storeTarget v t).response = s.response ∧ (s.storeTarget v t).agenda = s.agenda ∧
    (s.storeTarget v t).regs.busy = s.regs.busy ∧ (s.storeTarget v t).regs.done = s.regs.done ∧
    (s.storeTarget v t).regs.err = s.regs.err ∧ (s.storeTarget v t).regs.werr = s.regs.werr ∧
    (s.storeTarget v t).regs.errcode = s.regs.errcode := by
  cases t with
  | reg r =>
    have h := store_keeps v s.regs r
    exact ⟨rfl, rfl, rfl, rfl, h.1, h.2.1, h.2.2.1, h.2.2.2.1, h.2.2.2.2.1⟩
  | byte i => exact ⟨rfl, rfl, rfl, rfl, rfl, rfl, rfl, rfl, rfl⟩
  | word j => exact ⟨rfl, rfl, rfl, rfl, rfl, rfl, rfl, rfl, rfl⟩

/-! ## Good states -/

/-- A completed command leaves a good state, whatever it committed. -/
theorem complete_inv {s s' : State} (hm : s.mem.wf = true) (h : Committed s s') (code : ResultCode) :
    (s'.complete code).Inv where
  busy_pending := rfl
  busy_clear := fun hb => by simp [Regs.finish] at hb
  pending_command := by simp
  errcode_known := toByte_le code
  err_code := fun he => by
    simp only [complete_regs, Regs.finish] at he ⊢
    rw [Ne, toByte_eq_zero]
    simpa using he
  mem_wf := h.mem_wf hm

theorem softReset_inv {s : State} (hm : s.mem.wf = true) : s.softReset.Inv where
  busy_pending := rfl
  busy_clear := fun hb => by simp [Regs.reset] at hb
  pending_command := by simp
  errcode_known := by simp [Regs.reset]
  err_code := fun he => by simp [Regs.reset] at he
  mem_wf := hm

theorem hardReset_inv (s : State) : s.hardReset.Inv where
  busy_pending := rfl
  busy_clear := fun hb => by simp [Regs.reset] at hb
  pending_command := by simp
  errcode_known := by simp [Regs.reset]
  err_code := fun he => by simp [Regs.reset] at he
  mem_wf := unwritten_wf

/-- The model's own fields play no part in `Inv`. -/
theorem Inv.of_outside {s t : State} (h : s.Inv) (hr : t.regs = s.regs) (hp : t.pending = s.pending)
    (hm : t.mem = s.mem) : t.Inv where
  busy_pending := by rw [hr, hp]; exact h.busy_pending
  busy_clear := by rw [hr]; exact h.busy_clear
  pending_command := by rw [hp]; exact h.pending_command
  errcode_known := by rw [hr]; exact h.errcode_known
  err_code := by rw [hr]; exact h.err_code
  mem_wf := by rw [hm]; exact h.mem_wf

theorem dropWrite_inv {s : State} (h : s.Inv) : s.dropWrite.Inv where
  busy_pending := h.busy_pending
  busy_clear := h.busy_clear
  pending_command := h.pending_command
  errcode_known := h.errcode_known
  err_code := h.err_code
  mem_wf := h.mem_wf

theorem accept_inv {s : State} (h : s.Inv) {w : Word} (hw : w ≠ 0x000000FF#32) : (s.accept w).Inv where
  busy_pending := rfl
  busy_clear := fun _ => ⟨rfl, rfl⟩
  pending_command := by simpa using hw
  errcode_known := h.errcode_known
  err_code := fun he => by simp at he
  mem_wf := h.mem_wf

theorem clearStatus_inv {s : State} (h : s.Inv) (v : Word) : { s with regs := s.regs.clearStatus v }.Inv where
  busy_pending := h.busy_pending
  busy_clear := fun hb => by
    have := h.busy_clear hb
    simp [Regs.clearStatus, this]
  pending_command := h.pending_command
  errcode_known := h.errcode_known
  err_code := fun he => by
    simp only [Regs.clearStatus, Bool.and_eq_true] at he
    exact h.err_code he.1
  mem_wf := h.mem_wf

theorem storeTarget_inv {s : State} (h : s.Inv) {off : Off} {t : Target} (ht : targetOf off = some t) (v : Word) :
    (s.storeTarget v t).Inv := by
  obtain ⟨h1, _, _, _, h5, h6, h7, _, h9⟩ := storeTarget_keeps v s t
  exact
    { busy_pending := by rw [h5, h1]; exact h.busy_pending
      busy_clear := by rw [h5, h6, h7]; exact h.busy_clear
      pending_command := by rw [h1]; exact h.pending_command
      errcode_known := by rw [h9]; exact h.errcode_known
      err_code := by rw [h7, h9]; exact h.err_code
      mem_wf := storeTarget_wf ht v h.mem_wf }

end Sys2Proof.Machine
end

