-- ==== Sys2Proof/Laws/Bus.lean ====
section
/-! SUPPORT. What a step does with one bus access, by the offset it is made to (20_memory.md R43 to R46). -/
namespace Sys2Proof.Machine

/-! ## Runs -/

theorem run_zero (s : State) : Sys2Proof.core.run 0 s = Host.Outcome.next s := rfl

/-- A run of one step more goes on from a next state. -/
theorem run_succ {s t : State} (h : step s = .next t) (k : Nat) :
    Sys2Proof.core.run (k + 1) s = Sys2Proof.core.run k t := by
  have hc : Sys2Proof.core.step s = Host.Outcome.next t := h
  simp only [Host.Core.run, hc]

/-! ## What offsets name -/

theorem targetOf_cmd : targetOf cmdOffset = some (.reg .cmd) := by decide
theorem targetOf_crcData : targetOf crcDataOffset = some (.reg .crcData) := by decide
theorem targetOf_status : targetOf statusOffset = some (.reg .status) := by decide

theorem targetOf_aligned {off : Off} {t : Target} (h : targetOf off = some t) : off.toNat % 4 = 0 := by
  by_cases ha : off.toNat % 4 = 0
  · exact ha
  · rw [targetOf_misaligned ha] at h; cases h

theorem targetOf_bufOffset {off : Off} {i : Nat} (hi : i < 260) (h : off.toNat = 0x1000 + 4 * i) :
    targetOf off = some (.byte i) := by
  unfold targetOf
  rw [if_neg (by omega), if_neg (by omega), if_pos (by omega)]
  have : (off.toNat - 0x1000) / 4 = i := by omega
  rw [this, if_pos (by simp only [Config.frameBufBytes]; exact hi)]

theorem targetOf_wordsOffset {off : Off} {j : Nat} (hj : j < 128) (h : off.toNat = 0x2000 + 4 * j) :
    targetOf off = some (.word j) := by
  unfold targetOf
  rw [if_neg (by omega), if_neg (by omega), if_neg (by omega)]
  have : (off.toNat - 0x2000) / 4 = j := by omega
  rw [this, if_pos (by simp only [Config.wordBufEntries]; exact hj)]

theorem not_operation_of_buffer {off : Off} (h : 0x1000 ≤ off.toNat) :
    off ≠ cmdOffset ∧ off ≠ crcDataOffset ∧ off ≠ statusOffset := by
  refine ⟨?_, ?_, ?_⟩ <;> (rintro rfl; revert h; decide)

/-- Each register is what its offset names (R16). -/
theorem targetOf_offset (r : Reg) : targetOf r.offset = some (.reg r) := by cases r <;> decide

theorem offset_mem_rwFields {off : Off} {m : Word} (h : (off, m) ∈ rwFields) :
    ∃ r : Reg, off = r.offset ∧ r.access = .rw := by
  simp only [rwFields, List.mem_cons, Prod.mk.injEq, List.not_mem_nil, or_false] at h
  rcases h with h | h | h | h | h | h | h | h | h <;> obtain ⟨rfl, -⟩ := h
  · exact ⟨.ctrl, rfl, rfl⟩
  · exact ⟨.crc, rfl, rfl⟩
  · exact ⟨.unit, rfl, rfl⟩
  · exact ⟨.func, rfl, rfl⟩
  · exact ⟨.addr, rfl, rfl⟩
  · exact ⟨.count, rfl, rfl⟩
  · exact ⟨.txn, rfl, rfl⟩
  · exact ⟨.len, rfl, rfl⟩
  · exact ⟨.nwords, rfl, rfl⟩

theorem offset_mem_roOffsets {off : Off} (h : off ∈ roOffsets) : ∃ r : Reg, off = r.offset ∧ r.access = .ro := by
  simp only [roOffsets, List.mem_cons, List.not_mem_nil, or_false] at h
  rcases h with rfl | rfl | rfl | rfl | rfl | rfl | rfl | rfl
  · exact ⟨.id, rfl, rfl⟩
  · exact ⟨.errcode, rfl, rfl⟩
  · exact ⟨.rspUnit, rfl, rfl⟩
  · exact ⟨.rspFunc, rfl, rfl⟩
  · exact ⟨.rspExc, rfl, rfl⟩
  · exact ⟨.rspAddr, rfl, rfl⟩
  · exact ⟨.rspQty, rfl, rfl⟩
  · exact ⟨.rspTxn, rfl, rfl⟩

/-- An RW or RO register is at none of the three operation offsets. -/
theorem not_operation_of_access {r : Reg} (h : r.access = .rw ∨ r.access = .ro) :
    r.offset ≠ cmdOffset ∧ r.offset ≠ crcDataOffset ∧ r.offset ≠ statusOffset := by
  revert h
  cases r <;> decide

theorem targetOf_store {off : Off} (h : IsStoreOffset off) :
    ∃ t, targetOf off = some t ∧ t.storable = true ∧
      off ≠ cmdOffset ∧ off ≠ crcDataOffset ∧ off ≠ statusOffset := by
  rcases h with ⟨m, h⟩ | ⟨i, hi, h⟩ | ⟨j, hj, h⟩
  · obtain ⟨r, rfl, hr⟩ := offset_mem_rwFields h
    exact ⟨_, targetOf_offset r, by simp [Target.storable, hr], not_operation_of_access (.inl hr)⟩
  · exact ⟨_, targetOf_bufOffset hi h, rfl, not_operation_of_buffer (by omega)⟩
  · exact ⟨_, targetOf_wordsOffset hj h, rfl, not_operation_of_buffer (by omega)⟩

theorem targetOf_unmapped {off : Off} (h : IsUnmapped off) : targetOf off = none := by
  obtain ⟨h4, h | h | h⟩ := h
  · have hall : ∀ r ∈ Reg.all, r.offset.toNat < 0x50 := by decide
    have : Reg.all.find? (fun r => r.offset == off) = none := by
      rw [List.find?_eq_none]
      intro r hr he
      have hlt := hall r hr
      rw [eq_of_beq he] at hlt
      omega
    unfold targetOf
    rw [if_neg (by omega), if_pos (by omega), this]
    rfl
  · unfold targetOf
    rw [if_neg (by omega), if_neg (by omega), if_pos (by omega),
      if_neg (by simp only [Config.frameBufBytes]; omega)]
  · unfold targetOf
    rw [if_neg (by omega), if_neg (by omega), if_neg (by omega),
      if_neg (by simp only [Config.wordBufEntries]; omega)]

theorem not_legal_of_illegal {a : Access} (h : IsIllegalAccess a) : a.legal = false := by
  rw [Bool.eq_false_iff, Ne, legal_iff]
  rintro ⟨h1, h2, h3⟩
  rcases h with h | h | h <;> contradiction

/-! ## A step on an access -/

/-- An access that is not legal or whose offset names nothing is answered with an error and does nothing (R44, R45). -/
theorem step_error (s : State) (a : Access) (rest : List Turn) (h : a.legal = false ∨ targetOf a.off = none) :
    step (s.facing a rest) = .next (s.answered (errorAnswer a) rest) := by
  have hn : (if a.legal then targetOf a.off else none) = none := by
    rcases h with h | h <;> simp [h]
  simp only [step_facing, hostTurn, hn]
  obtain ⟨off, size, lanes, op⟩ := a
  cases op <;> rfl

/-- A read of a mapped offset returns what its target reads as (R46). -/
theorem step_read {off : Off} {t : Target} (ht : targetOf off = some t) (s : State) (rest : List Turn) :
    step (s.facing (.memRead off) rest) = .next (s.answered (.read .okay (s.readTarget t)) rest) := by
  have hl : (Access.memRead off).legal = true := by rw [legal_iff]; exact ⟨rfl, targetOf_aligned ht, rfl⟩
  have hn : (if (Access.memRead off).legal then targetOf (Access.memRead off).off else none) = some t := by
    rw [if_pos hl]; exact ht
  simp only [step_facing, hostTurn, hn]
  cases t <;> rfl

/-- A write to a mapped offset does what `hostWrite` says, once answered OKAY (R46). -/
theorem step_write {off : Off} {t : Target} (ht : targetOf off = some t) (v : Word) (s : State) (rest : List Turn) :
    step (s.facing (.memWrite off v) rest) = hostWrite off t v (s.answered (.written .okay) rest) := by
  have hl : (Access.memWrite off v).legal = true := by rw [legal_iff]; exact ⟨rfl, targetOf_aligned ht, rfl⟩
  have hn : (if (Access.memWrite off v).legal then targetOf (Access.memWrite off v).off else none) = some t := by
    rw [if_pos hl]; exact ht
  simp only [step_facing, hostTurn, hn]
  rfl

/-- A write that is no operation is a store (R46, R76). -/
theorem step_store {off : Off} {t : Target} (ht : targetOf off = some t)
    (h : off ≠ cmdOffset ∧ off ≠ crcDataOffset ∧ off ≠ statusOffset) (v : Word) (s : State) (rest : List Turn) :
    step (s.facing (.memWrite off v) rest) = .next ((s.answered (.written .okay) rest).busStore t v) := by
  obtain ⟨e, he⟩ := decodeWrite_none v h.1 h.2.1 h.2.2
  rw [step_write ht]
  simp only [hostWrite, he]

end Sys2Proof.Machine
end

