-- ==== Sys2Proof/Laws/Framing.lean ====
section
/-! SUPPORT. What stage S2 of DECODE answers on a whole frame (43_decode.md R100, R101). -/
namespace Sys2Proof.Machine

/-- A loaded RTU frame passes S2 and its body starts at BUF[0]. -/
theorem framed_rtuFrame {s : State} {p : List Byte} (hm : s.regs.mode = .rtu) (hp : 2 ≤ p.length)
    (hl : p.length + 2 ≤ 260) (h : Loaded s (rtuFrame p)) :
    s.framed = .ok ⟨0, p.length, 0#16⟩ ∧ ∀ k (hk : k < p.length), s.bufByte (0 + k) = p[k] := by
  have hlen : s.regs.len.toNat = p.length + 2 := by rw [h.1, rtuFrame_length]
  have hb : ∀ k (hk : k < p.length), s.bufByte k = p[k] := fun k hk => by
    rw [h.2 k (by rw [rtuFrame_length]; omega)]
    exact List.getElem_append_left hk
  have hlo : s.bufByte p.length = lo8 (crc16 p) := by
    rw [h.2 _ (by rw [rtuFrame_length]; omega)]
    simp [rtuFrame]
  have hhi : s.bufByte (p.length + 1) = hi8 (crc16 p) := by
    rw [h.2 _ (by rw [rtuFrame_length]; omega)]
    simp [rtuFrame]
  refine ⟨?_, fun k hk => by rw [Nat.zero_add]; exact hb k hk⟩
  have hc : s.storedCrc (p.length + 2) = crc16 p := by
    show be16 (s.bufByte (p.length + 1)) (s.bufByte p.length) = crc16 p
    rw [hlo, hhi, be16_hi8_lo8]
  have hs : s.bufSlice 0 (p.length + 2 - 2) = p := bufSlice_eq (by omega) hb
  simp only [State.framed, hlen, hm, State.framedRtu, hs, hc]
  rw [if_neg (by simp only [Config.frameBufBytes]; omega), if_neg (by omega), if_neg (by simp)]
  rfl

/-- A loaded MBAP frame with transaction id TXN passes S2 and its body starts at BUF[6]. -/
theorem framed_mbapFrame {s : State} {p : List Byte} (hm : s.regs.mode = .mbap) (hp : 2 ≤ p.length)
    (hl : p.length + 6 ≤ 260) (h : Loaded s (mbapFrame s.regs.txn p)) :
    s.framed = .ok ⟨6, p.length, s.regs.txn⟩ ∧ ∀ k (hk : k < p.length), s.bufByte (6 + k) = p[k] := by
  have hlen : s.regs.len.toNat = p.length + 6 := by rw [h.1, mbapFrame_length, Nat.add_comm]
  have hb : ∀ k (hk : k < p.length + 6), s.bufByte k = (mbapFrame s.regs.txn p)[k]'(by rw [mbapFrame_length]; omega) :=
    fun k hk => h.2 k (by rw [mbapFrame_length]; omega)
  have h0 : s.field16 0 = s.regs.txn := by
    show be16 (s.bufByte 0) (s.bufByte 1) = _
    rw [hb 0 (by omega), hb 1 (by omega)]
    exact be16_hi8_lo8 _
  have h2 : s.field16 2 = 0#16 := by
    show be16 (s.bufByte 2) (s.bufByte 3) = _
    rw [hb 2 (by omega), hb 3 (by omega)]
    show be16 0x00#8 0x00#8 = 0#16
    decide
  have h4 : (s.field16 4).toNat = p.length := by
    show (be16 (s.bufByte 4) (s.bufByte 5)).toNat = _
    rw [hb 4 (by omega), hb 5 (by omega)]
    show (be16 (hi8 _) (lo8 _)).toNat = _
    rw [be16_hi8_lo8, BitVec.toNat_ofNat, Nat.mod_eq_of_lt (by omega)]
  refine ⟨?_, fun k hk => ?_⟩
  · simp only [State.framed, hlen, hm, State.framedMbap, h0, h2, h4]
    rw [if_neg (by simp only [Config.frameBufBytes]; omega), if_neg (by omega), if_neg (by simp), if_neg (by omega),
      if_neg (by omega), if_neg (by simp), Nat.add_sub_cancel]
  · rw [hb (6 + k) (by omega)]
    simp only [mbapFrame]
    rw [List.getElem_append_right (by simp only [List.length_cons, List.length_nil]; omega)]
    simp only [List.length_cons, List.length_nil, Nat.zero_add, Nat.reduceAdd, Nat.add_sub_cancel_left]

/-- A loaded frame of the current mode passes S2: its body starts at an offset `o`, and `t` is what RSP_TXN is to hold. -/
theorem framed_frameOf {s : State} {p : List Byte} (hp : 2 ≤ p.length)
    (hl : (frameOf s.regs.mode s.regs.txn p).length ≤ 260) (h : Loaded s (frameOf s.regs.mode s.regs.txn p)) :
    ∃ o, s.framed = .ok ⟨o, p.length, if s.regs.mode = .mbap then s.regs.txn else 0#16⟩ ∧
      ∀ k (hk : k < p.length), s.bufByte (o + k) = p[k] := by
  cases hm : s.regs.mode with
  | rtu =>
    rw [hm] at hl h
    rw [show frameOf .rtu s.regs.txn p = rtuFrame p from rfl] at hl h
    rw [rtuFrame_length] at hl
    exact ⟨0, framed_rtuFrame hm hp hl h⟩
  | mbap =>
    rw [hm] at hl h
    rw [show frameOf .mbap s.regs.txn p = mbapFrame s.regs.txn p from rfl] at hl h
    rw [mbapFrame_length] at hl
    exact ⟨6, framed_mbapFrame hm hp (by omega) h⟩

end Sys2Proof.Machine
end

