-- ==== Sys2Proof/Laws/PerInstr.lean ====
section
/-! SUPPORT. The family OperationRegister: each operation's bus write goes to the register 30_encoding.md R58 gives it. -/
namespace Sys2Proof.Laws.OperationRegister

/-- The operation's bus write is a write to CMD, CRC_DATA or STATUS (R58), an aligned and mapped offset. -/
def Statement (i : Instr) : Prop :=
  Machine.targetOf (encode i).1 = some (.reg .cmd) ∨ Machine.targetOf (encode i).1 = some (.reg .crcData) ∨
  Machine.targetOf (encode i).1 = some (.reg .status)

theorem target_cmd : Machine.targetOf cmdOffset = some (.reg .cmd) := by decide
theorem target_crcData : Machine.targetOf crcDataOffset = some (.reg .crcData) := by decide
theorem target_status : Machine.targetOf statusOffset = some (.reg .status) := by decide

theorem nop : Statement .nop := .inl target_cmd
theorem crcInit : Statement .crcInit := .inl target_cmd
theorem crcBuf : Statement .crcBuf := .inl target_cmd
theorem crcCheck : Statement .crcCheck := .inl target_cmd
theorem crcAppend : Statement .crcAppend := .inl target_cmd
theorem encRead : Statement .encRead := .inl target_cmd
theorem encWrite : Statement .encWrite := .inl target_cmd
theorem decode : Statement .decode := .inl target_cmd
theorem softReset : Statement .softReset := .inl target_cmd
theorem illegal (w : Word) : Statement (.illegal w) := .inl target_cmd
theorem crcData (v : Word) : Statement (.crcData v) := .inr (.inl target_crcData)
theorem statusClear (v : Word) : Statement (.statusClear v) := .inr (.inr target_status)

end Sys2Proof.Laws.OperationRegister
end

