-- ==== Sys2Proof/Tests/Slice0.lean ====
section
/-! SUPPORT. Tests of the model on the vectors of 95_test_vectors.md (named in each docstring), the words of 30_encoding.md
R58 written out field by field, and a witness for the hypotheses of every statement. -/
namespace Sys2Proof.Tests
open Sys2Proof Sys2Proof.Machine

/-! ## States -/

/-- BUF[0..) holds `f` and LEN is its length. -/
def load (f : List Byte) (s : State) : State := (s.writeBuf 0 f).setLen f.length

theorem loaded_load (f : List Byte) (s : State) (h : f.length < 65536) : Loaded (load f s) f := by
  refine ⟨by simp [load, State.setLen, Nat.mod_eq_of_lt h], fun k hk => ?_⟩
  show (s.writeBuf 0 f).bufByte k = f[k]
  rw [bufByte_writeBuf, dif_pos ⟨Nat.zero_le k, by omega⟩]
  simp

/-- Registers of the start states of sections 2.2 and 2.3: CRC = 0x1234 and the operands of E1. -/
def operands : Regs :=
  { Regs.reset with crc := 0x1234#16, unit := 0x09#8, func := 0x03#8, addr := 0x07D0#16, count := 1#16, txn := 0x0001#16 }

/-- The start state with registers `r`. -/
def start (r : Regs) : State := { State.reset with regs := r }

/-- A reply frame for the PDU body `p`, loaded, with FUNC = `f` and TXN = 1. -/
def reply (m : Framing) (f : Byte) (p : List Byte) : State :=
  load (frameOf m 0x0001#16 p) (start { operands with mode := m, func := f })

theorem loaded_reply (m : Framing) (f : Byte) (p : List Byte) (h : (frameOf m 0x0001#16 p).length < 65536) :
    Loaded (reply m f p) (frameOf (reply m f p).regs.mode (reply m f p).regs.txn p) :=
  loaded_load _ _ h

/-- The block with the command word `w` accepted. -/
def busyWith (w : Word) : State := State.reset.accept w

/-- The state after an operation. -/
def after (o : Machine.Outcome) : State :=
  match o with
  | .next t => t
  | .fault _ | .refused _ => State.reset

/-- The first bytes of BUF with LEN, CRC and ERRCODE. -/
def frameOut (s : State) : List Byte × Half × Half × Byte :=
  (s.bufSlice 0 s.regs.len.toNat, s.regs.len, s.regs.crc, s.regs.errcode)

/-- The answer to one access, and STATUS after it. -/
def answer (a : Access) (s : State) : Option BusResponse × Word :=
  let t := after (step (s.facing a []))
  (t.response, t.regs.statusWord)

/-! ## Well-formedness -/

/-- R59: no defined word is an illegal one. -/
theorem test_wf_refuses_defined_words :
    [0x0#32, 0x1#32, 0x2#32, 0x3#32, 0x4#32, 0x10#32, 0x11#32, 0x20#32, 0xFF#32].any (fun w => (Instr.illegal w).wf) = false := by
  decide +kernel

/-- R59, R81: reserved opcodes and nonzero RSVD fields. -/
theorem test_wf_accepts_illegal_words :
    [0x5#32, 0x0F#32, 0x12#32, 0x21#32, 0xFE#32, 0x110#32, 0x1FF#32, 0x80000000#32].all (fun w => (Instr.illegal w).wf) = true := by
  decide +kernel

/-! ## Decoding: RSVD (24 bits) then OPCODE (8 bits), R57 and R58 -/

theorem test_decode_nop : decodeWrite 0x00C#14 (0x000000#24 ++ 0x00#8) = .ok .nop := rfl
theorem test_decode_crcInit : decodeWrite 0x00C#14 (0x000000#24 ++ 0x01#8) = .ok .crcInit := rfl
theorem test_decode_crcBuf : decodeWrite 0x00C#14 (0x000000#24 ++ 0x02#8) = .ok .crcBuf := rfl
theorem test_decode_crcCheck : decodeWrite 0x00C#14 (0x000000#24 ++ 0x03#8) = .ok .crcCheck := rfl
theorem test_decode_crcAppend : decodeWrite 0x00C#14 (0x000000#24 ++ 0x04#8) = .ok .crcAppend := rfl
theorem test_decode_encRead : decodeWrite 0x00C#14 (0x000000#24 ++ 0x10#8) = .ok .encRead := rfl
theorem test_decode_encWrite : decodeWrite 0x00C#14 (0x000000#24 ++ 0x11#8) = .ok .encWrite := rfl
theorem test_decode_decode : decodeWrite 0x00C#14 (0x000000#24 ++ 0x20#8) = .ok .decode := rfl
theorem test_decode_softReset : decodeWrite 0x00C#14 (0x000000#24 ++ 0xFF#8) = .ok .softReset := rfl

/-- L3, and the word of R80's corner case. -/
theorem test_decode_illegal :
    decodeWrite 0x00C#14 (0x000001#24 ++ 0x10#8) = .ok (.illegal 0x110#32) ∧
    decodeWrite 0x00C#14 (0x000001#24 ++ 0xFF#8) = .ok (.illegal 0x1FF#32) := ⟨rfl, rfl⟩

theorem test_decode_crcData : decodeWrite 0x018#14 0x000001FF#32 = .ok (.crcData 0x1FF#32) := rfl
theorem test_decode_statusClear : decodeWrite 0x008#14 0x0000000E#32 = .ok (.statusClear 0xE#32) := rfl

/-- R44, R16: writes that are no operation are rejected by name. -/
theorem test_decode_rejects :
    decodeWrite 0x00D#14 0x0#32 = .error .misaligned ∧ decodeWrite 0x014#14 0x0#32 = .error .notAnOperation := ⟨rfl, rfl⟩

/-- The words of spec/opcode_table.json. -/
theorem test_decodeTableWord :
    decodeTableWord 32 0x20 = some .decode ∧ decodeTableWord 32 0x110 = some (.illegal 0x110#32) ∧
    decodeTableWord 48 0x0018000000D0 = some (.crcData 0xD0#32) ∧
    decodeTableWord 48 0x00080000000E = some (.statusClear 0xE#32) := ⟨rfl, rfl, rfl, rfl⟩

/-- The placed word is the next one to run: L1 and C9. -/
theorem test_withFetchWord :
    step (State.reset.withFetchWord 32 0x0) = exec .nop { busyWith 0x0#32 with agenda := [] } ∧
    (after (step (State.reset.withFetchWord 48 0x0018000001FF))).regs.crc = 0x00FF#16 := ⟨rfl, by decide +kernel⟩

/-! ## Frames -/

/-- X11 and X4, from R69, R70 and R63; X15 from R68 and R64. -/
theorem test_frames :
    rtuFrame (writeReply 0x09 0x10 0x03E8#16 0x0003#16) = [0x09, 0x10, 0x03, 0xE8, 0x00, 0x03, 0x01, 0x30] ∧
    rtuFrame (exceptionReply 0x09 0x03 0x02) = [0x09, 0x83, 0x02, 0x41, 0x33] ∧
    mbapFrame 0x0001#16 (readReply 0x09 0x03 [0x1234#16]) =
      [0x00, 0x01, 0x00, 0x00, 0x00, 0x05, 0x09, 0x03, 0x02, 0x12, 0x34] := by decide +kernel

/-! ## One operation each -/

/-- L1. -/
theorem test_nop : (after (exec .nop (busyWith 0x0#32))).regs.statusWord = 0x2#32 := by decide

/-- I1. -/
theorem test_crcInit : (after (exec .crcInit (start operands))).regs.crc = 0xFFFF#16 := by decide

/-- B2. -/
theorem test_crcBuf_reference :
    (after (exec .crcBuf (load [0x09, 0x03, 0x07, 0xD0, 0x00, 0x01] (start operands)))).regs.crc = 0xCF85#16 := by
  decide +kernel

/-- B5. -/
theorem test_crcBuf_too_long :
    (after (exec .crcBuf (start { operands with len := 0xFFFF#16 }))).regs.crc = 0x1234#16 := by decide

/-- K2. -/
theorem test_crcCheck_mismatch :
    frameOut (after (exec .crcCheck (load [0x09, 0x03, 0x07, 0xD0, 0x00, 0x01, 0x85, 0xCE] (start operands)))) =
      ([0x09, 0x03, 0x07, 0xD0, 0x00, 0x01, 0x85, 0xCE], 8#16, 0xCF85#16, 3#8) := by decide +kernel

/-- K5. -/
theorem test_crcCheck_short :
    frameOut (after (exec .crcCheck (load [0x07] (start operands)))) = ([0x07], 1#16, 0x1234#16, 2#8) := by decide +kernel

/-- A3. -/
theorem test_crcAppend :
    frameOut (after (exec .crcAppend (load [0x11, 0x03, 0x00, 0x6B, 0x00, 0x03] (start operands)))) =
      ([0x11, 0x03, 0x00, 0x6B, 0x00, 0x03, 0x76, 0x87], 8#16, 0x8776#16, 0#8) := by decide +kernel

/-- A5. -/
theorem test_crcAppend_too_long :
    (after (exec .crcAppend (start { operands with len := 259#16 }))).regs.len = 259#16 := by decide

/-- E2. -/
theorem test_encRead_rtu :
    frameOut (after (exec .encRead (start { operands with count := 125#16 }))) =
      ([0x09, 0x03, 0x07, 0xD0, 0x00, 0x7D, 0x84, 0x2E], 8#16, 0x2E84#16, 0#8) := by decide +kernel

/-- E10. -/
theorem test_encRead_mbap :
    frameOut (after (exec .encRead (start { operands with mode := .mbap, count := 125#16, txn := 0xFFFF#16 }))) =
      ([0xFF, 0xFF, 0x00, 0x00, 0x00, 0x06, 0x09, 0x03, 0x07, 0xD0, 0x00, 0x7D], 12#16, 0x1234#16, 0#8) := by
  decide +kernel

/-- The operands of W4 and, in MBAP mode with TXN = 0x1234, of a frame laid out as W8. -/
def writeOperands (m : Framing) : State :=
  (start { operands with mode := m, unit := 0x01#8, func := 0x10#8, addr := 0x0001#16, nwords := 2#8,
                         txn := 0x1234#16 }).writeWords 0 [0x000A#16, 0x0102#16]

/-- W4. -/
theorem test_encWrite_rtu :
    frameOut (after (exec .encWrite (writeOperands .rtu))) =
      ([0x01, 0x10, 0x00, 0x01, 0x00, 0x02, 0x04, 0x00, 0x0A, 0x01, 0x02, 0x92, 0x30], 13#16, 0x3092#16, 0#8) := by
  decide +kernel

/-- R64 and R97 by hand, on the values of W4. -/
theorem test_encWrite_mbap :
    frameOut (after (exec .encWrite (writeOperands .mbap))) =
      ([0x12, 0x34, 0x00, 0x00, 0x00, 0x0B, 0x01, 0x10, 0x00, 0x01, 0x00, 0x02, 0x04, 0x00, 0x0A, 0x01, 0x02], 17#16,
        0x1234#16, 0#8) := by decide +kernel

/-- X3. -/
theorem test_decode_read_reply :
    let t := after (exec .decode (load [0x11, 0x03, 0x06, 0xAE, 0x41, 0x56, 0x52, 0x43, 0x40, 0x49, 0xAD] (start operands)))
    (t.regs.errcode, t.regs.rspUnit, t.regs.nwords, t.wordsUpTo 3) = (0#8, 0x11#8, 3#8, [0xAE41#16, 0x5652#16, 0x4340#16]) := by
  decide +kernel

/-- X4. -/
theorem test_decode_exception :
    let t := after (exec .decode (load [0x09, 0x83, 0x02, 0x41, 0x33] (start operands)))
    (t.regs.errcode, t.regs.rspUnit, t.regs.rspFunc, t.regs.rspExc) = (4#8, 0x09#8, 0x83#8, 0x02#8) := by decide +kernel

/-- L8. -/
theorem test_softReset :
    let t := after (exec .softReset { busyWith 0x20#32 with mem := { buf := [(0, 7#8)], words := [] } })
    (t.pending, t.regs, t.bufByte 0) = (none, Regs.reset, 7#8) := by decide

/-- L2. -/
theorem test_illegal :
    let t := after (exec (.illegal 0x5#32) (busyWith 0x5#32))
    (t.regs.errcode, t.regs.statusWord) = (9#8, 0x6#32) := by decide

/-- C9. -/
theorem test_crcData_low_byte : (after (exec (.crcData 0x1FF#32) State.reset)).regs.crc = 0x00FF#16 := by decide +kernel

/-- C10. -/
theorem test_crcData_busy :
    let t := after (exec (.crcData 0x1FF#32) (busyWith 0x0#32))
    (t.regs.crc, t.regs.statusWord) = (0xFFFF#16, 0x9#32) := by decide

/-- L9. -/
theorem test_statusClear :
    (after (exec (.statusClear 0x4#32) (start { Regs.reset with done := true, err := true, werr := true }))).regs.statusWord
      = 0xA#32 := by decide

/-- L12. -/
theorem test_statusClear_busy_bit : (after (exec (.statusClear 0x1#32) (busyWith 0x0#32))).regs.statusWord = 0x1#32 := by decide

/-! ## Bus accesses -/

/-- M1, M13. -/
theorem test_bus_reads :
    answer (.memRead 0x000#14) State.reset = (some (.read .okay 0x4D430001#32), 0x0#32) ∧
    answer (.memRead 0x00C#14) State.reset = (some (.read .okay 0x0#32), 0x0#32) := by decide +kernel

/-- M3, M4, M5, M6. -/
theorem test_bus_errors :
    answer (.memRead 0x050#14) State.reset = (some (.read .slverr 0x0#32), 0x0#32) ∧
    answer (.memWrite 0x1410#14 1#32) (busyWith 0x0#32) = (some (.written .slverr), 0x1#32) ∧
    answer (.memWrite 0x2200#14 1#32) State.reset = (some (.written .slverr), 0x0#32) ∧
    answer (.memWrite 0x1001#14 5#32) State.reset = (some (.written .slverr), 0x0#32) := by decide +kernel

/-- M7: a 16-bit access, and a 32-bit one with a lane missing. -/
theorem test_bus_width :
    answer ⟨0x004#14, 2, 0x3#4, .write 1#32⟩ State.reset = (some (.written .slverr), 0x0#32) ∧
    answer ⟨0x004#14, 4, 0x7#4, .write 1#32⟩ State.reset = (some (.written .slverr), 0x0#32) := by decide +kernel

/-- M9, M10, M11: write then read. -/
theorem test_bus_write_read :
    ((after (step (State.reset.facing (.memWrite 0x004#14 0xFFFFFFFF#32) []))).readTarget (.reg .ctrl) = 0x3#32) ∧
    ((after (step (State.reset.facing (.memWrite 0x1000#14 0x1AB#32) []))).readTarget (.byte 0) = 0xAB#32) ∧
    ((after (step (State.reset.facing (.memWrite 0x2000#14 0x12345678#32) []))).readTarget (.word 0) = 0x5678#32) := by
  decide +kernel

/-- L5, L6, M12: writes while busy. -/
theorem test_bus_busy :
    answer (.memWrite 0x00C#14 0x10#32) (busyWith 0x0#32) = (some (.written .okay), 0x9#32) ∧
    answer (.memWrite 0x2000#14 0x1#32) (busyWith 0x0#32) = (some (.written .okay), 0x9#32) ∧
    answer (.memWrite 0x038#14 0x5#32) (busyWith 0x0#32) = (some (.written .okay), 0x1#32) := by decide +kernel

/-! ## A host program -/

/-- P1's last line: the host reads CRC. -/
theorem test_host_reads_crc :
    (System.hostLine ⟨⟨[.rd 0x014#14 0], 0, []⟩, State.reset⟩).map (fun y => y.host.vars) = some [(0, 0x0000FFFF#32)] := by
  decide +kernel

/-! ## Witnesses: states and operands that meet the hypotheses of each statement, clause by clause -/

theorem witness_SoftResetAbandonsCommand :
    (0x1FF#32).extractLsb' 0 8 = 0xFF#8 ∧ (0x1FF#32).extractLsb' 8 24 ≠ 0#24 ∧
    (0x800000FF#32).extractLsb' 0 8 = 0xFF#8 ∧ (0x800000FF#32).extractLsb' 8 24 ≠ 0#24 ∧
    State.reset.regs.busy = false ∧ (busyWith 0x20#32).regs.busy = true := by decide

theorem witness_IdleBlockDoesNothing : State.reset.quiescent := rfl

theorem witness_ReservedWordsAreIllegal :
    (0x100#32).extractLsb' 8 24 ≠ 0#24 ∧
    (5 ≤ (0x05#32).toNat ∧ (0x0F#32).toNat ≤ 0x0F) ∧ (0x12 ≤ (0x12#32).toNat ∧ (0x1F#32).toNat ≤ 0x1F) ∧
    (0x21 ≤ (0x21#32).toNat ∧ (0xFE#32).toNat ≤ 0xFE) := by decide

theorem witness_DecodeOfEncode :
    ∀ i ∈ [Instr.nop, .decode, .softReset, .illegal 0x5#32, .illegal 0xFFFFFFFF#32, .crcData 0xFFFFFFFF#32, .statusClear 0xE#32],
      i.wf = true := by decide +kernel

theorem witness_EncodeOfDecode :
    decodeWrite 0x00C#14 0x20#32 = .ok .decode ∧ decodeWrite 0x018#14 0x1FF#32 = .ok (.crcData 0x1FF#32) := ⟨rfl, rfl⟩

theorem witness_EngineRunsPendingCommand :
    (busyWith 0x20#32).regs.busy = true ∧ (busyWith 0x20#32).pending = some 0x20#32 := ⟨rfl, rfl⟩

theorem witness_BusWriteRunsOperation :
    decodeWrite 0x00C#14 0xFF#32 = .ok .softReset ∧ decodeWrite 0x018#14 0x1FF#32 = .ok (.crcData 0x1FF#32) ∧
    decodeWrite 0x008#14 0xE#32 = .ok (.statusClear 0xE#32) := ⟨rfl, rfl, rfl⟩

theorem witness_IdleCommandIsAccepted :
    State.reset.regs.busy = false ∧ 0x000000FF#32 = 0x000000FF#32 ∧ 0x1FF#32 ≠ 0x000000FF#32 := by decide

theorem witness_BusyCommandIsDropped : (busyWith 0x20#32).regs.busy = true ∧ 0x1FF#32 ≠ 0x000000FF#32 := by decide

theorem storeOffset_0x004 : IsStoreOffset 0x004#14 := .inl ⟨0x3#32, by simp [rwFields]⟩
theorem storeOffset_0x140C : IsStoreOffset 0x140C#14 := .inr (.inl ⟨259, by decide, rfl⟩)
theorem storeOffset_0x21FC : IsStoreOffset 0x21FC#14 := .inr (.inr ⟨127, by decide, rfl⟩)

theorem witness_BusyWritesAreDropped :
    (busyWith 0x20#32).regs.busy = true ∧ IsStoreOffset 0x004#14 ∧ IsStoreOffset 0x140C#14 ∧ IsStoreOffset 0x21FC#14 ∧
    (0x000#14 ∈ roOffsets ∧ 0x04C#14 ∈ roOffsets) ∧ IsIllegalAccess ⟨0x004#14, 2, 0xF#4, .read⟩ ∧
    IsUnmapped (Access.memWrite 0x050#14 0#32).off :=
  ⟨rfl, storeOffset_0x004, storeOffset_0x140C, storeOffset_0x21FC, by decide, .inl (by decide), by decide,
    .inl (by decide)⟩

theorem witness_OperandsHoldWhileBusy :
    (busyWith 0x20#32).regs.busy = true ∧ Access.memWrite 0x1000#14 5#32 ≠ .memWrite 0x00C#14 0x000000FF#32 := by decide

theorem witness_CompletionRecordsResult : ∀ v, Instr.decode ≠ .softReset ∧ Instr.decode ≠ .crcData v ∧ Instr.decode ≠ .statusClear v :=
  fun _ => ⟨nofun, nofun, nofun⟩

theorem witness_CommandsReadNoFlag : ∀ v, Instr.nop ≠ .softReset ∧ Instr.nop ≠ .crcData v ∧ Instr.nop ≠ .statusClear v :=
  fun _ => ⟨nofun, nofun, nofun⟩

theorem witness_DroppedStoreDoesNotDisturbCommand :
    (busyWith 0x20#32).regs.busy = true ∧ (busyWith 0x20#32).pending = some 0x20#32 ∧ 0x20#32 ≠ 0x000000FF#32 ∧
    IsStoreOffset 0x004#14 := ⟨rfl, rfl, by decide, storeOffset_0x004⟩

theorem witness_OnlyTheseEndBusy :
    ∀ a ∈ [[], [Turn.engine], [.hardReset], [.host (.memWrite 0x00C#14 0x000000FF#32)]],
      (busyWith 0x0#32).regs.busy = true ∧ ∃ t, step { busyWith 0x0#32 with agenda := a } = .next t ∧ t.regs.busy = false := by
  simp only [List.mem_cons, List.not_mem_nil, or_false]
  rintro a (rfl | rfl | rfl | rfl) <;> exact ⟨rfl, _, rfl, rfl⟩

/-- The block with a NOP accepted and its interrupt enabled. -/
def listening : State := { busyWith 0x0#32 with regs := { (busyWith 0x0#32).regs with irqEn := true } }

theorem witness_OnlyTheseRaiseIrq :
    (listening.irq = false ∧ ∃ t, step listening = .next t ∧ t.irq = true) ∧
    ((start { Regs.reset with done := true }).irq = false ∧
      ∃ t, step ((start { Regs.reset with done := true }).facing (.memWrite 0x004#14 0x2#32) []) = .next t ∧ t.irq = true) :=
  ⟨⟨rfl, _, rfl, rfl⟩, rfl, _, rfl, rfl⟩

theorem witness_IllegalAccessAnswersSlverr :
    IsIllegalAccess ⟨0x004#14, 2, 0xF#4, .read⟩ ∧ IsIllegalAccess ⟨0x3FFF#14, 4, 0xF#4, .write 1#32⟩ ∧
    IsIllegalAccess ⟨0x004#14, 4, 0x7#4, .read⟩ :=
  ⟨.inl (by decide), .inr (.inl (by decide)), .inr (.inr (by decide))⟩

theorem witness_UnmappedAccessAnswersSlverr :
    (IsUnmapped 0x0050#14 ∧ IsUnmapped 0x0FFC#14) ∧ (IsUnmapped 0x1410#14 ∧ IsUnmapped 0x1FFC#14) ∧
    (IsUnmapped 0x2200#14 ∧ IsUnmapped 0x3FFC#14) := by
  unfold IsUnmapped
  decide

theorem witness_ReadsReturnFieldsOnly :
    (0x04C#14, 0#32) ∈ registerReads State.reset.regs ∧ 0 < 260 ∧ 259 < 260 ∧ 0 < 128 ∧ 127 < 128 := by
  refine ⟨?_, by decide, by decide, by decide, by decide⟩
  simp [registerReads, State.reset, Regs.reset]

theorem witness_RegisterWriteThenRead :
    State.reset.regs.busy = false ∧ (0x004#14, 0x3#32) ∈ rwFields ∧ (0x034#14, 0xFF#32) ∈ rwFields ∧
    0x000#14 ≠ 0x004#14 ∧ (0x000#14, 0x4D430001#32) ∈ registerReads State.reset.regs := by
  refine ⟨rfl, by simp [rwFields], by simp [rwFields], by decide, ?_⟩
  simp [registerReads]

theorem witness_BufferWriteChangesOneEntry : State.reset.regs.busy = false ∧ 0 < 260 ∧ 259 < 260 ∧ 0 < 128 ∧ 127 < 128 := by
  decide

theorem witness_BusNeverWritesResults : Access.memWrite 0x038#14 5#32 ≠ .memWrite 0x00C#14 0x000000FF#32 := by decide

theorem witness_AddressMapIsOneToOne :
    targetOf 0x04C#14 = some (.reg .rspTxn) ∧ targetOf 0x140C#14 = some (.byte 259) ∧ targetOf 0x21FC#14 = some (.word 127) ∧
    targetOf 0x050#14 = none ∧ targetOf 0x3FFF#14 = none := by decide +kernel

theorem witness_WindowFollowsBaseAddr : 0x3FFF < 0x4000 ∧ 0x4000 + 0x4000 ≤ 0x8000 := by decide

theorem witness_CrcDataTakesInBytes :
    State.reset.regs.busy = false ∧ (busyWith 0x0#32).regs.busy = true ∧ [0x09#8] ≠ [] ∧ State.reset.regs.crc = 0xFFFF#16 := by
  decide

/-- Frames of every length the bounds of R91 to R93 name. -/
theorem witness_CrcBufResult :
    (start { operands with len := 261#16 }).regs.len.toNat > 260 ∧ Loaded (load [] State.reset) [] ∧
    Loaded (load (List.replicate 260 0) State.reset) (List.replicate 260 0) ∧ (List.replicate 260 (0 : Byte)).length ≤ 260 :=
  ⟨by decide, loaded_load _ _ (by decide), loaded_load _ _ (by rw [List.length_replicate]; decide),
    Nat.le_of_eq List.length_replicate⟩

theorem witness_CrcCheckResult :
    (start { operands with len := 261#16 }).regs.len.toNat > 260 ∧ (start { operands with len := 1#16 }).regs.len.toNat < 2 ∧
    Loaded (load ([] ++ [0xFF, 0xFF]) State.reset) ([] ++ [0xFF, 0xFF]) ∧
    Loaded (load (List.replicate 258 0 ++ [1, 2]) State.reset) (List.replicate 258 0 ++ [1, 2]) ∧
    (List.replicate 258 (0 : Byte)).length + 2 ≤ 260 :=
  ⟨by decide, by decide, loaded_load _ _ (by decide),
    loaded_load _ _ (by rw [List.length_append, List.length_replicate]; decide),
    Nat.le_of_eq (congrArg (· + 2) List.length_replicate)⟩

theorem witness_CrcAppendResult :
    (start { operands with len := 259#16 }).regs.len.toNat > 258 ∧
    Loaded (load (List.replicate 258 0) State.reset) (List.replicate 258 0) ∧ (List.replicate 258 (0 : Byte)).length ≤ 258 :=
  ⟨by decide, loaded_load _ _ (by rw [List.length_replicate]; decide), Nat.le_of_eq List.length_replicate⟩

theorem witness_AppendThenCheckSucceeds : (start { operands with len := 258#16 }).regs.len.toNat ≤ 258 := by decide

theorem witness_CrcOperationsIgnoreMode : (∃ v, Instr.crcData 7#32 = .crcData v) ∧ Instr.crcAppend = .crcAppend :=
  ⟨⟨_, rfl⟩, rfl⟩

theorem witness_EncReadResult :
    (start { operands with count := 0#16 }).regs.count.toNat < 1 ∧
    125 < (start { operands with count := 126#16 }).regs.count.toNat ∧
    1 ≤ (start operands).regs.count.toNat ∧ (start operands).regs.count.toNat ≤ 125 ∧
    (start { operands with count := 125#16 }).regs.count.toNat ≤ 125 ∧ (start operands).regs.mode = .rtu ∧
    (start { operands with mode := .mbap }).regs.mode = .mbap := by decide

/-- `n` register values, each 0x1111 (W10, W11). -/
def written (n : Nat) : State :=
  (start { operands with nwords := BitVec.ofNat 8 n }).writeWords 0 (List.replicate n 0x1111#16)

theorem written_wordAt (n : Nat) (j : Nat) (h : j < (List.replicate n 0x1111#16).length) :
    (written n).wordAt j = (List.replicate n 0x1111#16)[j] := by
  rw [written, wordAt_writeWords, dif_pos ⟨Nat.zero_le j, by omega⟩]
  simp

theorem witness_EncWriteResult :
    (start { operands with nwords := 0#8 }).regs.nwords.toNat < 1 ∧
    123 < (start { operands with nwords := 124#8 }).regs.nwords.toNat ∧
    ∀ n ∈ [1, 123], 1 ≤ (List.replicate n 0x1111#16).length ∧ (List.replicate n 0x1111#16).length ≤ 123 ∧
      (written n).regs.nwords.toNat = (List.replicate n 0x1111#16).length ∧
      ∀ j (h : j < (List.replicate n 0x1111#16).length), (written n).wordAt j = (List.replicate n 0x1111#16)[j] := by
  refine ⟨by decide, by decide, ?_⟩
  intro n hn
  simp only [List.mem_cons, List.not_mem_nil, or_false] at hn
  rcases hn with rfl | rfl
  · exact ⟨by simp, by simp, rfl, written_wordAt 1⟩
  · exact ⟨by simp, by simp, rfl, written_wordAt 123⟩

theorem witness_EncodedFramesFitBuf :
    (after (exec .encRead (start operands))).regs.errcode = 0#8 ∧
    (after (exec .encWrite (writeOperands .mbap))).regs.errcode = 0#8 := by decide +kernel

theorem witness_DecodeRtuFramingFailures :
    260 < (start { operands with len := 261#16 }).regs.len.toNat ∧
    ((start { operands with len := 3#16 }).regs.mode = .rtu ∧ (start { operands with len := 3#16 }).regs.len.toNat < 4) ∧
    (Loaded (load ([0x09, 0x03] ++ [0x47, 0xE0]) (start operands)) ([0x09, 0x03] ++ [0x47, 0xE0]) ∧
      crc16 [0x09, 0x03] ≠ be16 0xE0 0x47) :=
  ⟨by decide, by decide, loaded_load _ _ (by decide), by decide +kernel⟩

/-- An MBAP frame of the bytes `f`, loaded, with TXN = 1. -/
def mbap (f : List Byte) : State := load f (start { operands with mode := .mbap })

/-- The lengths, fields and clauses of X16 to X19 and of a frame one byte too short. -/
theorem witness_DecodeMbapFramingFailures :
    (mbap [0x00, 0x01, 0x00, 0x00, 0x00, 0x02, 0x09]).regs.len.toNat < 8 ∧
    be16 ((mbap [0x00, 0x01, 0x00, 0x01, 0x00, 0x05, 0x09, 0x03, 0x02, 0x12, 0x34]).bufByte 2)
      ((mbap [0x00, 0x01, 0x00, 0x01, 0x00, 0x05, 0x09, 0x03, 0x02, 0x12, 0x34]).bufByte 3) ≠ 0#16 ∧
    (∀ f ∈ [[0x00, 0x01, 0x00, 0x00, 0x00, 0x06, 0x09, 0x03, 0x02, 0x12, 0x34],
            [0x00, 0x01, 0x00, 0x00, 0x00, 0x04, 0x09, 0x03, 0x02, 0x12, 0x34],
            [0x00, 0x02, 0x00, 0x00, 0x00, 0x05, 0x09, 0x03, 0x02, 0x12, 0x34]],
      (mbap f).regs.mode = .mbap ∧ (mbap f).regs.len.toNat = 11 ∧ be16 ((mbap f).bufByte 2) ((mbap f).bufByte 3) = 0#16) ∧
    (11 < 6 + (be16 0x00 0x06).toNat ∧ 6 + (be16 0x00 0x04).toNat < 11 ∧ 11 = 6 + (be16 0x00 0x05).toNat ∧
      be16 0x00 0x02 ≠ (mbap []).regs.txn) := by decide +kernel

theorem witness_DecodeExceptionResponse :
    (0x83#8).getLsbD 7 = true ∧ ∀ m ∈ [Framing.rtu, .mbap], ∀ d ∈ [[], [0x02#8], [0x02#8, 0x00#8]],
      Loaded (reply m 0x03#8 ([0x09#8, 0x83#8] ++ d))
        (frameOf (reply m 0x03#8 ([0x09#8, 0x83#8] ++ d)).regs.mode (reply m 0x03#8 ([0x09#8, 0x83#8] ++ d)).regs.txn
          ([0x09#8, 0x83#8] ++ d)) ∧
      (frameOf m 0x0001#16 ([0x09#8, 0x83#8] ++ d)).length ≤ 260 := by
  have h : ∀ m ∈ [Framing.rtu, .mbap], ∀ d ∈ [[], [0x02#8], [0x02#8, 0x00#8]],
      (frameOf m 0x0001#16 ([0x09#8, 0x83#8] ++ d)).length ≤ 260 := by decide +kernel
  exact ⟨by decide, fun m hm d hd => ⟨loaded_reply _ _ _ (by have := h m hm d hd; omega), h m hm d hd⟩⟩

theorem witness_DecodeUnexpectedFunction :
    (0x10#8).getLsbD 7 = false ∧ 0x10#8 ≠ (reply .rtu 0x03#8 ([0x09#8, 0x10#8] ++ [])).regs.func ∧
    ∀ m ∈ [Framing.rtu, .mbap],
      Loaded (reply m 0x03#8 ([0x09#8, 0x10#8] ++ []))
        (frameOf (reply m 0x03#8 ([0x09#8, 0x10#8] ++ [])).regs.mode (reply m 0x03#8 ([0x09#8, 0x10#8] ++ [])).regs.txn
          ([0x09#8, 0x10#8] ++ [])) ∧
      (frameOf m 0x0001#16 ([0x09#8, 0x10#8] ++ [])).length ≤ 260 := by
  have h : ∀ m ∈ [Framing.rtu, .mbap], (frameOf m 0x0001#16 ([0x09#8, 0x10#8] ++ [])).length ≤ 260 := by decide +kernel
  exact ⟨by decide, by decide, fun m hm => ⟨loaded_reply _ _ _ (by have := h m hm; omega), h m hm⟩⟩

/-- The payloads of X14, X11 and, for each later clause, one byte short, one byte long, an odd byte count (X30), a byte count
that is not twice the quantity (X13), and X12. -/
def writePayloads : List (List Byte) :=
  [[0x03, 0xE8, 0x00], [0x03, 0xE8, 0x00, 0x03], [0x03, 0xE8, 0x00, 0x03, 0x02, 0x09],
   [0x03, 0xE8, 0x00, 0x03, 0x00, 0x09], [0x03, 0xE8, 0x00, 0x03, 0x01, 0x09],
   [0x03, 0xE8, 0x00, 0x02, 0x06, 0x09, 0x00, 0x00, 0x00, 0x00, 0x00],
   [0x03, 0xE8, 0x00, 0x03, 0x06, 0x09, 0x00, 0x00, 0x00, 0x00, 0x00]]

theorem witness_DecodeWriteLayout :
    (∀ m ∈ [Framing.rtu, .mbap], ∀ d ∈ writePayloads,
      (reply m 0x10#8 ([0x09#8, 0x10#8] ++ d)).regs.func = 0x10#8 ∧
      Loaded (reply m 0x10#8 ([0x09#8, 0x10#8] ++ d))
        (frameOf (reply m 0x10#8 ([0x09#8, 0x10#8] ++ d)).regs.mode (reply m 0x10#8 ([0x09#8, 0x10#8] ++ d)).regs.txn
          ([0x09#8, 0x10#8] ++ d)) ∧
      (frameOf m 0x0001#16 ([0x09#8, 0x10#8] ++ d)).length ≤ 260) ∧
    [hi8 0x03E8#16, lo8 0x03E8#16, hi8 0x0003#16, lo8 0x0003#16] = [0x03, 0xE8, 0x00, 0x03] ∧
    wordBytes [0x0900#16, 0x0000#16, 0x0000#16] = [0x09, 0x00, 0x00, 0x00, 0x00, 0x00] := by
  have h : ∀ m ∈ [Framing.rtu, .mbap], ∀ d ∈ writePayloads,
      (frameOf m 0x0001#16 ([0x09#8, 0x10#8] ++ d)).length ≤ 260 := by decide +kernel
  exact ⟨fun m hm d hd => ⟨rfl, loaded_reply _ _ _ (by have := h m hm d hd; omega), h m hm d hd⟩, by decide, by decide⟩

/-- No payload, one byte short, one byte long, an odd byte count, a byte count of 0, and X2. -/
def readPayloads : List (List Byte) :=
  [[], [0x02, 0x31], [0x00, 0x31], [0x01, 0x31], [0x00], [0x02, 0x31, 0x00]]

theorem witness_DecodeReadLayout :
    (0x03#8).getLsbD 7 = false ∧ 0x03#8 ≠ 0x10#8 ∧
    (∀ m ∈ [Framing.rtu, .mbap], ∀ d ∈ readPayloads,
      (reply m 0x03#8 ([0x09#8, 0x03#8] ++ d)).regs.func = 0x03#8 ∧
      Loaded (reply m 0x03#8 ([0x09#8, 0x03#8] ++ d))
        (frameOf (reply m 0x03#8 ([0x09#8, 0x03#8] ++ d)).regs.mode (reply m 0x03#8 ([0x09#8, 0x03#8] ++ d)).regs.txn
          ([0x09#8, 0x03#8] ++ d)) ∧
      (frameOf m 0x0001#16 ([0x09#8, 0x03#8] ++ d)).length ≤ 260) ∧
    wordBytes [0x3100#16] = [0x31, 0x00] := by
  have h : ∀ m ∈ [Framing.rtu, .mbap], ∀ d ∈ readPayloads,
      (frameOf m 0x0001#16 ([0x09#8, 0x03#8] ++ d)).length ≤ 260 := by decide +kernel
  exact ⟨by decide, by decide, fun m hm d hd => ⟨rfl, loaded_reply _ _ _ (by have := h m hm d hd; omega), h m hm d hd⟩, by decide⟩

/-- X2, X4 and X9: a success, a failure that commits, and one that does not. -/
theorem witness_DecodeWritesOnlyItsOutputs :
    (after (exec .decode (load [0x09, 0x03, 0x02, 0x31, 0x00, 0x4C, 0x15] (start operands)))).regs.errcode = 0#8 ∧
    (after (exec .decode (load [0x09, 0x83, 0x02, 0x41, 0x33] (start operands)))).regs.errcode = 4#8 ∧
    (after (exec .decode (load [0x09, 0x03, 0x02, 0x31, 0x00, 0x55, 0xD4, 0xCA] (start operands)))).regs.errcode = 6#8 := by
  decide +kernel

/-- X6: bit 0 of byte 3 of X2. -/
theorem witness_FlippedBitFailsChecksum :
    let s := load [0x09, 0x03, 0x02, 0x31, 0x00, 0x4C, 0x15] (start operands)
    s.regs.mode = .rtu ∧ (∃ u, exec .decode s = .next u ∧ u.regs.errcode = 0#8) ∧ 3 < s.regs.len.toNat ∧
    (s.writeBuf 3 [0x30]).regs = s.regs ∧
    ∀ j, (s.writeBuf 3 [0x30]).bufByte j = if j = 3 then s.bufByte j ^^^ (1#8 <<< 0) else s.bufByte j := by
  refine ⟨rfl, ⟨_, rfl, by decide +kernel⟩, by decide +kernel, rfl, fun j => ?_⟩
  rw [bufByte_writeBuf]
  by_cases h : j = 3
  · subst h
    decide +kernel
  · rw [if_neg h, dif_neg (by simp only [List.length_cons, List.length_nil]; omega)]

/-- X2 and X15; and the longest replies of R107. -/
theorem witness_ReadReplyRoundTrip :
    (0x03#8).getLsbD 7 = false ∧ 0x03#8 ≠ 0x10#8 ∧
    ∀ x ∈ [(Framing.rtu, [0x3100#16]), (.mbap, [0x1234#16]), (.rtu, List.replicate 127 0#16), (.mbap, List.replicate 125 0#16)],
      (reply x.1 0x03#8 (readReply 0x09#8 0x03#8 x.2)).regs.func = 0x03#8 ∧
      (frameOf x.1 0x0001#16 (readReply 0x09#8 0x03#8 x.2)).length ≤ 260 ∧
      Loaded (reply x.1 0x03#8 (readReply 0x09#8 0x03#8 x.2))
        (frameOf (reply x.1 0x03#8 (readReply 0x09#8 0x03#8 x.2)).regs.mode
          (reply x.1 0x03#8 (readReply 0x09#8 0x03#8 x.2)).regs.txn (readReply 0x09#8 0x03#8 x.2)) := by
  have h : ∀ x ∈ [(Framing.rtu, [0x3100#16]), (.mbap, [0x1234#16]), (.rtu, List.replicate 127 0#16),
      (.mbap, List.replicate 125 0#16)], (frameOf x.1 0x0001#16 (readReply 0x09#8 0x03#8 x.2)).length ≤ 260 := by
    decide +kernel
  exact ⟨by decide, by decide, fun x hx => ⟨rfl, h x hx, loaded_reply _ _ _ (by have := h x hx; omega)⟩⟩

theorem witness_WriteRequestRoundTrip :
    (writeOperands .rtu).regs.func = 0x10#8 ∧ 1 ≤ (writeOperands .rtu).regs.nwords.toNat ∧
    (writeOperands .rtu).regs.nwords.toNat ≤ 123 := by decide

/-- A busy state and the reset state, which meets the invariant (`Obligations.ResetMeetsInvariant`). -/
theorem witness_StepKeepsInvariant : State.reset.Inv ∧ (busyWith 0x20#32).Inv :=
  ⟨⟨rfl, nofun, nofun, by decide, nofun, by decide⟩,
    ⟨rfl, fun _ => ⟨rfl, rfl⟩, by decide, by decide, nofun, by decide⟩⟩

theorem witness_PseudoInstructionExpansions : 2 < [0x09#8, 0x03#8, 0x02#8].length ∧ 0 < [0x0900#16].length := by decide

/-- A WAIT of a host that has read STATUS = 0x1, before each of its lines, and a WR and a BZ. -/
theorem witness_HostLinesReachBlockByAccess :
    let lines : List HostLine := [.label 0, .rd 0x008#14 3, .bnz 3 0x1#32 0, .bz 3 0x1#32 0, .wr 0x00C#14 0x0#32]
    lines[0]? = some (.label 0) ∧ lines[1]? = some (.rd 0x008#14 3) ∧ lines[2]? = some (.bnz 3 0x1#32 0) ∧
    lines[3]? = some (.bz 3 0x1#32 0) ∧ lines[4]? = some (.wr 0x00C#14 0x0#32) ∧
    cellGet 3 [(3, 0x1#32)] = some 0x1#32 ∧ lines.findIdx? (· == .label 0) = some 0 := by decide +kernel

end Sys2Proof.Tests
end

section
/-! What the bus answers to an access that reaches nothing (20_memory.md R44, R45). -/
namespace Sys2Proof.Machine

@[simp] theorem errorAnswer_memRead (off : Off) : errorAnswer (.memRead off) = .read .slverr 0#32 := rfl

@[simp] theorem errorAnswer_memWrite (off : Off) (v : Word) : errorAnswer (.memWrite off v) = .written .slverr := rfl

/-- An access of any kind to an unmapped offset is answered with an error, whatever its width and lanes (R45). -/
theorem step_unmapped {a : Access} (h : IsUnmapped a.off) (s : State) (rest : List Turn) :
    step (s.facing a rest) = .next (s.answered (errorAnswer a) rest) :=
  step_error s a rest (.inr (targetOf_unmapped h))

/-- Settles O20: an illegal access fails the legality check, so the bus looks up no target. -/
theorem illegalAccessAnswersSlverr : Obligations.IllegalAccessAnswersSlverr := by
  intro s a rest h
  exact step_error s a rest (.inl (not_legal_of_illegal h))

/-- Settles O21: an unmapped offset names no target, so the read and the write are both answered with an error. -/
theorem unmappedAccessAnswersSlverr : Obligations.UnmappedAccessAnswersSlverr := by
  intro s off v rest h
  constructor
  · simpa only [errorAnswer_memRead] using step_unmapped (a := .memRead off) h s rest
  · simpa only [errorAnswer_memWrite] using step_unmapped (a := .memWrite off v) h s rest

end Sys2Proof.Machine
end

section
/-! The opcode map (30_encoding.md R58): encoding undoes the decoder of CMD words, so each operation has one word. -/
namespace Sys2Proof.Machine

/-- An operation read from a CMD write is encoded as that write: an illegal word is kept whole. -/
@[simp] theorem encode_decodeCommand (w : Word) : encode (decodeCommand w) = (cmdOffset, w) := by
  rcases decodeCommand_cases w with ⟨rfl, h⟩ | ⟨rfl, h⟩ | ⟨rfl, h⟩ | ⟨rfl, h⟩ | ⟨rfl, h⟩ | ⟨rfl, h⟩ | ⟨rfl, h⟩ |
    ⟨rfl, h⟩ | ⟨rfl, h⟩ | ⟨-, h⟩
  all_goals rw [h]; rfl

theorem decodeCommand_injective : Function.Injective decodeCommand := by
  intro v w h
  have hw : encode (decodeCommand v) = encode (decodeCommand w) := congrArg encode h
  simpa using hw

/-- Settles O5: each row's word decodes to its operation, and no other word does since `decodeCommand` is injective. -/
theorem opcodeMapDecodes : Obligations.OpcodeMapDecodes := by
  refine ⟨fun p hp w => ?_, fun v => ⟨decodeWrite_crcData v, decodeWrite_status v⟩⟩
  have hrow : decodeCommand p.1 = p.2 := by
    revert p hp
    decide
  calc decodeWrite cmdOffset w = .ok p.2
      ↔ decodeCommand w = decodeCommand p.1 := by rw [decodeWrite_cmd, hrow, Except.ok.injEq]
    _ ↔ w = p.1 := decodeCommand_injective.eq_iff

end Sys2Proof.Machine
end

section
/-! The command lifecycle and the control operations (40_command_control.md R74 to R81): what completion records, and what
a bus write does by its offset and by STATUS.BUSY. -/
namespace Sys2Proof.Machine

/-! ## Completion -/

/-- Completion records the code over the committed registers (R77). -/
theorem complete_recorded {s s' : State} (h : SameOutside s s') (code : ResultCode) :
    Recorded s (s'.complete code) code.toByte s'.regs := by
  refine ⟨?_, rfl, h⟩
  rw [complete_regs, Regs.finish, err_toByte]

/-- Settles O31: neither body writes a buffer, and `complete_recorded` gives the result fields. -/
theorem nopAndCrcInitResults : Obligations.NopAndCrcInitResults := by
  intro s
  constructor
  · exact ⟨s.complete .ok, rfl, complete_recorded ⟨rfl, rfl, rfl⟩ .ok, complete_bufByte s .ok, complete_wordAt s .ok⟩
  · exact ⟨(s.setCrc Config.crcInitValue).complete .ok, rfl, complete_recorded ⟨rfl, rfl, rfl⟩ .ok,
      fun _ => rfl, fun _ => rfl⟩

/-! ## Illegal command words -/

/-- An illegal command completes with code 9, whatever the word (R81). -/
theorem failsWith_illegal (w : Word) (s : State) : FailsWith (.illegal w) s 9#8 :=
  ⟨s.complete .illegalCommand, rfl, complete_recorded ⟨rfl, rfl, rfl⟩ .illegalCommand,
    complete_bufByte s .illegalCommand, complete_wordAt s .illegalCommand⟩

/-- Settles O6: none of the nine words of the opcode map meets the premise, so the word decodes to the illegal command. -/
theorem reservedWordsAreIllegal : Obligations.ReservedWordsAreIllegal := by
  intro w hw
  refine ⟨?_, failsWith_illegal w⟩
  rcases decodeCommand_cases w with ⟨rfl, -⟩ | ⟨rfl, -⟩ | ⟨rfl, -⟩ | ⟨rfl, -⟩ | ⟨rfl, -⟩ | ⟨rfl, -⟩ | ⟨rfl, -⟩ |
    ⟨rfl, -⟩ | ⟨rfl, -⟩ | ⟨-, h⟩
  case inr.inr.inr.inr.inr.inr.inr.inr.inr => exact h
  all_goals exact absurd hw (by decide)

/-! ## Writes to the operation offsets -/

/-- A CMD write of the SOFT_RESET word runs it in that step, busy or not (R80). -/
theorem step_softReset (s : State) (rest : List Turn) :
    step (s.facing (.memWrite cmdOffset 0x000000FF#32) rest) =
      exec .softReset (s.answered (.written .okay) rest) :=
  step_write targetOf_cmd _ s rest

/-- A CMD write of any other word issues it (R74, R75). -/
theorem step_issue {v : Word} (hv : v ≠ 0x000000FF#32) (s : State) (rest : List Turn) :
    step (s.facing (.memWrite cmdOffset v) rest) = .next ((s.answered (.written .okay) rest).issue v) := by
  have hlatched : ¬ runsAtOnce (decodeCommand v) = true := mt (runsAtOnce_decodeCommand v).mp hv
  rw [step_write targetOf_cmd]
  simp only [hostWrite, decodeWrite_cmd, if_neg hlatched]

/-- A STATUS write runs the STATUS clear in that step, busy or not (R78). -/
theorem step_statusClear (s : State) (v : Word) (rest : List Turn) :
    step (s.facing (.memWrite statusOffset v) rest) =
      exec (.statusClear v) (s.answered (.written .okay) rest) :=
  step_write targetOf_status v s rest

/-- A CRC_DATA write takes effect in that step, busy or not (41_crc.md R89). -/
theorem step_crcData (s : State) (v : Word) (rest : List Turn) :
    step (s.facing (.memWrite crcDataOffset v) rest) = exec (.crcData v) (s.answered (.written .okay) rest) :=
  step_write targetOf_crcData v s rest

/-- Settles O28: where a bit of `v` is 1 the flag is cleared, where it is 0 the flag is kept. -/
theorem statusClearClearsWrittenBits : Obligations.StatusClearClearsWrittenBits := by
  intro s v
  have hflag (old written : Bool) : (old && !written) = if written then false else old := by
    cases written <;> simp
  refine ⟨⟨_, rfl, ?_⟩, step_statusClear s v⟩
  simp only [Regs.clearStatus, hflag]

/-! ## CMD writes -/

/-- An idle block accepts the word (R74). -/
theorem step_cmd_idle {s : State} (hidle : s.regs.busy = false) {v : Word} (hv : v ≠ 0x000000FF#32)
    (rest : List Turn) :
    step (s.facing (.memWrite cmdOffset v) rest) = .next ((s.answered (.written .okay) rest).accept v) := by
  have hissue : (s.answered (.written .okay) rest).issue v = (s.answered (.written .okay) rest).accept v :=
    if_neg (Bool.eq_false_iff.mp hidle)
  rw [step_issue hv, hissue]

/-- A busy block drops the word (R75). -/
theorem step_cmd_busy {s : State} (hbusy : s.regs.busy = true) {v : Word} (hv : v ≠ 0x000000FF#32)
    (rest : List Turn) :
    step (s.facing (.memWrite cmdOffset v) rest) = .next (s.answered (.written .okay) rest).dropWrite := by
  have hissue : (s.answered (.written .okay) rest).issue v = (s.answered (.written .okay) rest).dropWrite :=
    if_pos hbusy
  rw [step_issue hv, hissue]

/-- Settles O11: an idle block issues the word by accepting it, and acceptance clears DONE. -/
theorem idleCommandIsAccepted : Obligations.IdleCommandIsAccepted := by
  intro s v rest hidle
  constructor
  · rintro rfl
    exact step_softReset s rest
  · intro hv
    exact ⟨(s.answered (.written .okay) rest).accept v, step_cmd_idle hidle hv rest, Bool.and_false _, rfl⟩

/-- Settles O12: a busy block issues the word by dropping the write. -/
theorem busyCommandIsDropped : Obligations.BusyCommandIsDropped := by
  intro s v rest hbusy hv
  exact step_cmd_busy hbusy hv rest

/-! ## SOFT_RESET -/

/-- The reset registers read as the table of 70_reset_and_hazards.md R125 says. -/
theorem atReset_of_regs {t : State} (hr : t.regs = Regs.reset) (hp : t.pending = none) : AtReset t := by
  refine ⟨hp, fun p hmem => ?_⟩
  have htable : ∀ p ∈ resetReads, Regs.reset.read p.1 = p.2 := by decide
  rw [State.readTarget, hr, htable p hmem]

/-- Settles O2: a word with low byte 0xFF and RSVD nonzero is a reserved word (O6) and not SOFT_RESET, so it is issued as
any other command word is (O11, O12). -/
theorem softResetAbandonsCommand : Obligations.SoftResetAbandonsCommand := by
  refine ⟨fun s => ?_, step_softReset, fun s rest w _ hrsvd => ?_⟩
  · exact ⟨s.softReset, rfl, atReset_of_regs rfl rfl, rfl, softReset_bufByte s, softReset_wordAt s, rfl, rfl, rfl⟩
  · have hw : w ≠ 0x000000FF#32 := by
      rintro rfl
      exact hrsvd (by decide)
    obtain ⟨hillegal, hfails⟩ := reservedWordsAreIllegal w (.inl hrsvd)
    refine ⟨hillegal, hfails s, fun hidle => ?_, fun hbusy => busyCommandIsDropped s w rest hbusy hw⟩
    obtain ⟨t, hstep, -, rfl⟩ := (idleCommandIsAccepted s w rest hidle).2 hw
    exact hstep

/-! ## Other writes while busy -/

/-- A CRC_DATA write while busy is dropped (R76). -/
theorem step_crcData_busy {s : State} (hbusy : s.regs.busy = true) (v : Word) (rest : List Turn) :
    step (s.facing (.memWrite crcDataOffset v) rest) = .next (s.answered (.written .okay) rest).dropWrite :=
  (step_crcData s v rest).trans (congrArg _ (if_pos hbusy))

/-- A write to an RW register, a BUF entry or a WORDS entry while busy is dropped (R76). -/
theorem step_store_busy {s : State} (hbusy : s.regs.busy = true) {off : Off} (h : IsStoreOffset off) (v : Word)
    (rest : List Turn) :
    step (s.facing (.memWrite off v) rest) = .next (s.answered (.written .okay) rest).dropWrite := by
  obtain ⟨t, ht, hstorable, hop⟩ := targetOf_store h
  have hdrop : (s.answered (.written .okay) rest).busStore t v = (s.answered (.written .okay) rest).dropWrite :=
    (if_pos hstorable).trans (if_pos hbusy)
  rw [step_store ht hop, hdrop]

/-- A write to an RO register is answered OKAY and ignored, busy or not (10_state.md R16, R76). -/
theorem step_readOnly {off : Off} (h : off ∈ roOffsets) (s : State) (v : Word) (rest : List Turn) :
    step (s.facing (.memWrite off v) rest) = .next (s.answered (.written .okay) rest) := by
  obtain ⟨r, rfl, hro⟩ := offset_mem_roOffsets h
  have hkeep : (s.answered (.written .okay) rest).busStore (.reg r) v = s.answered (.written .okay) rest :=
    if_neg (by simp [Target.storable, hro])
  rw [step_store (targetOf_offset r) (not_operation_of_access (.inr hro)), hkeep]

/-- Settles O13: one rule per kind of offset; only the dropped writes depend on BUSY. -/
theorem busyWritesAreDropped : Obligations.BusyWritesAreDropped := by
  intro s off v rest hbusy
  refine ⟨?_, ?_, fun hro => step_readOnly hro s v rest, fun a ha => ?_⟩
  · rintro (rfl | hstore)
    · exact step_crcData_busy hbusy v rest
    · exact step_store_busy hbusy hstore v rest
  · rintro rfl
    exact step_statusClear s v rest
  · rcases ha with hillegal | hunmapped
    · exact step_error s a rest (.inl (not_legal_of_illegal hillegal))
    · exact step_unmapped hunmapped s rest

end Sys2Proof.Machine
end


section
/-! The CRC unit (41_crc.md R88 to R93): what each CRC operation leaves, and that no CRC operation reads
CTRL.MODE. -/
namespace Sys2Proof.Machine

/-! ## CRC_DATA -/

theorem exec_crcData_idle {s : State} (hidle : s.regs.busy = false) (v : Word) :
    exec (.crcData v) s = .next (s.setCrc (crcUpdate s.regs.crc (v.setWidth 8))) :=
  congrArg _ (if_neg (Bool.eq_false_iff.mp hidle))

theorem exec_crcData_busy {s : State} (hbusy : s.regs.busy = true) (v : Word) :
    exec (.crcData v) s = .next s.dropWrite :=
  congrArg _ (if_pos hbusy)

/-- The bus writes that feed the bytes `p` to CRC_DATA, one each (R89). -/
def crcWrites (p : List Byte) : List Turn := p.map fun b => .host (.memWrite crcDataOffset (b.setWidth 32))

/-- An idle block takes in the byte of the first write and has the others still to come. -/
theorem step_crcWrites {s : State} (hidle : s.regs.busy = false) (b : Byte) (p : List Byte) :
    step { s with agenda := crcWrites (b :: p) } =
      .next ((s.answered (.written .okay) (crcWrites p)).setCrc (crcUpdate s.regs.crc b)) := by
  have hbyte : (b.setWidth 32).setWidth 8 = b := by simp
  calc step (s.facing (.memWrite crcDataOffset (b.setWidth 32)) (crcWrites p))
      = exec (.crcData (b.setWidth 32)) (s.answered (.written .okay) (crcWrites p)) := step_crcData s _ _
    _ = .next ((s.answered (.written .okay) (crcWrites p)).setCrc
          (crcUpdate s.regs.crc ((b.setWidth 32).setWidth 8))) := exec_crcData_idle (s := s.answered _ _) hidle _
    _ = _ := by rw [hbyte]

/-- Fed a non-empty byte sequence, an idle block folds it into CRC, whatever CRC held before. -/
theorem run_crcWrites (p : List Byte) : ∀ {s : State} (b : Byte), s.regs.busy = false →
    Sys2Proof.core.run (b :: p).length { s with agenda := crcWrites (b :: p) } =
      .next ((s.answered (.written .okay) []).setCrc ((b :: p).foldl crcUpdate s.regs.crc)) := by
  induction p with
  | nil =>
    intro s b hidle
    exact (run_succ (step_crcWrites hidle b []) 0).trans (run_zero _)
  | cons b' p ih =>
    intro s b hidle
    rw [List.length_cons, run_succ (step_crcWrites hidle b (b' :: p))]
    exact ih (s := (s.answered (.written .okay) []).setCrc (crcUpdate s.regs.crc b)) b' hidle

/-- Settles O29: `crc16` is the fold of `crcUpdate` from 0xFFFF, which is what a run of the writes leaves. -/
theorem crcDataTakesInBytes : Obligations.CrcDataTakesInBytes := by
  refine ⟨fun s v => ⟨fun hidle => ?_, fun hbusy => ?_, step_crcData s v⟩, fun s p hp hidle hcrc => ?_⟩
  · have hbyte : v.extractLsb' 0 8 = v.setWidth 8 := (BitVec.setWidth_eq_extractLsb' (by decide)).symm
    exact ⟨_, exec_crcData_idle hidle v, by rw [hbyte]; rfl⟩
  · exact ⟨_, exec_crcData_busy hbusy v, rfl⟩
  · obtain ⟨b, p, rfl⟩ := List.exists_cons_of_ne_nil hp
    have hrun := run_crcWrites p b hidle
    rw [hcrc] at hrun
    exact hrun

/-! ## What a command that at most sets CRC leaves -/

theorem failsWith_of_finished {i : Instr} {s : State} {code : ResultCode}
    (h : exec i s = finished (code, s)) : FailsWith i s code.toByte :=
  ⟨s.complete code, h, complete_recorded ⟨rfl, rfl, rfl⟩ code, complete_bufByte s code, complete_wordAt s code⟩

theorem recorded_of_finished_setCrc {i : Instr} {s : State} {code : ResultCode} {c : Half}
    (h : exec i s = finished (code, s.setCrc c)) :
    ∃ t, exec i s = .next t ∧ Recorded s t code.toByte { s.regs with crc := c } ∧ SameBuf s t ∧ SameWords s t :=
  ⟨(s.setCrc c).complete code, h, complete_recorded ⟨rfl, rfl, rfl⟩ code, fun _ => rfl, fun _ => rfl⟩

/-! ## CRC_BUF -/

theorem exec_crcBuf_tooLong {s : State} (h : s.regs.len.toNat > 260) :
    exec .crcBuf s = finished (.invalidArgument, s) :=
  congrArg finished (if_pos h)

theorem exec_crcBuf_fits {s : State} (h : s.regs.len.toNat ≤ 260) :
    exec .crcBuf s = finished (.ok, s.setCrc (crc16 (s.bufSlice 0 s.regs.len.toNat))) :=
  congrArg finished (if_neg (Nat.not_lt.mpr h))

/-- Settles O32: the slice of BUF that CRC_BUF reads is the loaded frame. -/
theorem crcBufResult : Obligations.CrcBufResult := by
  refine fun s => ⟨fun hlong => failsWith_of_finished (exec_crcBuf_tooLong hlong), fun f ⟨hlen, hbytes⟩ hfits => ?_⟩
  have hexec := exec_crcBuf_fits (Nat.le_trans (Nat.le_of_eq hlen) hfits)
  rw [bufSlice_eq hlen hbytes] at hexec
  exact recorded_of_finished_setCrc hexec

/-! ## CRC_CHECK -/

theorem exec_crcCheck_tooLong {s : State} (h : s.regs.len.toNat > 260) :
    exec .crcCheck s = finished (.invalidArgument, s) :=
  congrArg finished (if_pos h)

theorem exec_crcCheck_tooShort {s : State} (h : s.regs.len.toNat < 2) :
    exec .crcCheck s = finished (.shortFrame, s) := by
  have hfits : ¬ s.regs.len.toNat > Config.frameBufBytes := by
    simp only [Config.frameBufBytes]
    omega
  exact congrArg finished ((if_neg hfits).trans (if_pos h))

/-- With LEN = `l + 2` in bounds, CRC is set whether or not it matches the stored one (R92). -/
theorem exec_crcCheck_fits {s : State} {l : Nat} (hlen : s.regs.len.toNat = l + 2) (hfits : l + 2 ≤ 260) :
    exec .crcCheck s = finished
      (if crc16 (s.bufSlice 0 l) = s.storedCrc (l + 2) then .ok else .checksumMismatch,
        s.setCrc (crc16 (s.bufSlice 0 l))) := by
  refine congrArg finished ?_
  have hlong : ¬ l + 2 > Config.frameBufBytes := Nat.not_lt.mpr hfits
  have hshort : ¬ l + 2 < 2 := by omega
  simp only [runCrcCheck, hlen, if_neg hlong, if_neg hshort, Nat.add_sub_cancel]
  by_cases hmatch : crc16 (s.bufSlice 0 l) = s.storedCrc (l + 2)
  · rw [if_neg (not_not_intro hmatch), if_pos hmatch]
  · rw [if_pos hmatch, if_neg hmatch]

/-- The first bytes of a loaded frame are the slice of BUF from 0. -/
theorem Loaded.bufSlice_prefix {s : State} {p q : List Byte} (h : Loaded s (p ++ q)) : s.bufSlice 0 p.length = p := by
  refine bufSlice_eq rfl fun k hk => ?_
  rw [h.2 k (by rw [List.length_append]; omega), List.getElem_append_left hk]

/-- The last two bytes of a loaded frame are its stored CRC, low byte first (R63). -/
theorem Loaded.storedCrc {s : State} {p : List Byte} {lo hi : Byte} (h : Loaded s (p ++ [lo, hi])) :
    s.storedCrc (p.length + 2) = be16 hi lo := by
  have hlo : s.bufByte p.length = lo := by rw [h.2 p.length (by simp)]; simp
  have hhi : s.bufByte (p.length + 1) = hi := by rw [h.2 (p.length + 1) (by simp)]; simp
  calc s.storedCrc (p.length + 2) = be16 (s.bufByte (p.length + 1)) (s.bufByte p.length) := rfl
    _ = be16 hi lo := by rw [hlo, hhi]

/-- Settles O33: in bounds, CRC_CHECK reads the body and the stored CRC of the loaded frame. -/
theorem crcCheckResult : Obligations.CrcCheckResult := by
  refine fun s => ⟨fun hlong => failsWith_of_finished (exec_crcCheck_tooLong hlong),
    fun hshort => failsWith_of_finished (exec_crcCheck_tooShort hshort), fun p lo hi hloaded hfits => ?_⟩
  have hlen : s.regs.len.toNat = p.length + 2 := hloaded.1.trans (by simp)
  have hexec := exec_crcCheck_fits hlen hfits
  rw [hloaded.bufSlice_prefix, hloaded.storedCrc] at hexec
  have hcode : (if crc16 p = be16 hi lo then 0#8 else 3#8) =
      (if crc16 p = be16 hi lo then ResultCode.ok else .checksumMismatch).toByte := by
    rw [apply_ite ResultCode.toByte]
    rfl
  rw [hcode]
  exact recorded_of_finished_setCrc hexec

/-! ## CRC_APPEND -/

theorem exec_crcAppend_tooLong {s : State} (h : s.regs.len.toNat > 258) :
    exec .crcAppend s = finished (.invalidArgument, s) :=
  congrArg finished (if_pos h)

/-- With room for two bytes, CRC_APPEND writes the CRC after the frame and counts it in LEN (R93). -/
theorem exec_crcAppend_fits {s : State} {l : Nat} {c : Half} (hlen : s.regs.len.toNat = l) (hfits : l ≤ 258)
    (hc : crc16 (s.bufSlice 0 l) = c) :
    exec .crcAppend s = finished (.ok, ((s.writeBuf l [lo8 c, hi8 c]).setLen (l + 2)).setCrc c) := by
  subst hlen hc
  exact congrArg finished (if_neg (Nat.not_lt.mpr hfits))

/-! ## CTRL.MODE -/

/-- `CTRL.MODE <- m` (10_state.md R18). -/
def State.setMode (m : Framing) (s : State) : State := { s with regs := { s.regs with mode := m } }

/-- From states that differ only in CTRL.MODE, `i` answers states that differ only in CTRL.MODE. -/
def IgnoresMode (i : Instr) : Prop :=
  ∀ (s : State) (m : Framing), ∃ t, exec i s = .next t ∧ exec i (s.setMode m) = .next (t.setMode m)

theorem crcData_ignoresMode (v : Word) : IgnoresMode (.crcData v) := by
  intro s m
  cases hbusy : s.regs.busy with
  | false => exact ⟨_, exec_crcData_idle hbusy v, exec_crcData_idle (s := s.setMode m) hbusy v⟩
  | true => exact ⟨_, exec_crcData_busy hbusy v, exec_crcData_busy (s := s.setMode m) hbusy v⟩

theorem crcInit_ignoresMode : IgnoresMode .crcInit := fun _ _ => ⟨_, rfl, rfl⟩

theorem crcBuf_ignoresMode : IgnoresMode .crcBuf := by
  intro s m
  rcases Nat.lt_or_ge 260 s.regs.len.toNat with hlong | hfits
  · exact ⟨_, exec_crcBuf_tooLong hlong, exec_crcBuf_tooLong (s := s.setMode m) hlong⟩
  · exact ⟨_, exec_crcBuf_fits hfits, exec_crcBuf_fits (s := s.setMode m) hfits⟩

theorem crcCheck_ignoresMode : IgnoresMode .crcCheck := by
  intro s m
  rcases Nat.lt_or_ge 260 s.regs.len.toNat with hlong | hfits
  · exact ⟨_, exec_crcCheck_tooLong hlong, exec_crcCheck_tooLong (s := s.setMode m) hlong⟩
  rcases Nat.lt_or_ge s.regs.len.toNat 2 with hshort | hbody
  · exact ⟨_, exec_crcCheck_tooShort hshort, exec_crcCheck_tooShort (s := s.setMode m) hshort⟩
  · obtain ⟨l, hlen⟩ := Nat.exists_eq_add_of_le' hbody
    rw [hlen] at hfits
    exact ⟨_, exec_crcCheck_fits hlen hfits, exec_crcCheck_fits (s := s.setMode m) hlen hfits⟩

theorem crcAppend_ignoresMode : IgnoresMode .crcAppend := by
  intro s m
  rcases Nat.lt_or_ge 258 s.regs.len.toNat with hlong | hfits
  · exact ⟨_, exec_crcAppend_tooLong hlong, exec_crcAppend_tooLong (s := s.setMode m) hlong⟩
  · exact ⟨_, exec_crcAppend_fits rfl hfits rfl, exec_crcAppend_fits (s := s.setMode m) rfl hfits rfl⟩

/-- Settles O36: LEN, BUSY and the slices of BUF, all that the CRC operations branch on or read, are the same for every
MODE. -/
theorem crcOperationsIgnoreMode : Obligations.CrcOperationsIgnoreMode := by
  rintro i s m (⟨v, rfl⟩ | rfl | rfl | rfl | rfl)
  · exact crcData_ignoresMode v s m
  · exact crcInit_ignoresMode s m
  · exact crcBuf_ignoresMode s m
  · exact crcCheck_ignoresMode s m
  · exact crcAppend_ignoresMode s m

end Sys2Proof.Machine
end

section
/-! The request encoders (42_encode.md R94 to R97): what Emit leaves in each framing, and the frames of ENC_READ and
ENC_WRITE. -/
namespace Sys2Proof.Machine

/-! ## Emit -/

theorem emit_rtu {s : State} (hmode : s.regs.mode = .rtu) (p : List Byte) :
    s.emit p = ((s.writeBuf 0 (rtuFrame p)).setLen (p.length + 2)).setCrc (crc16 p) := by
  simp only [State.emit, hmode]

theorem emit_mbap {s : State} (hmode : s.regs.mode = .mbap) (p : List Byte) :
    s.emit p = (s.writeBuf 0 (mbapFrame s.regs.txn p)).setLen (6 + p.length) := by
  simp only [State.emit, hmode]

@[simp] theorem emit_wordAt (s : State) (p : List Byte) (j : Nat) : (s.emit p).wordAt j = s.wordAt j := by
  cases hmode : s.regs.mode with
  | rtu => rw [emit_rtu hmode]; rfl
  | mbap => rw [emit_mbap hmode]; rfl

@[simp] theorem emit_bufByte (s : State) (p : List Byte) (k : Nat) :
    (s.emit p).bufByte k = (s.writeBuf 0 (frameOf s.regs.mode s.regs.txn p)).bufByte k := by
  cases hmode : s.regs.mode with
  | rtu => rw [emit_rtu hmode]; rfl
  | mbap => rw [emit_mbap hmode]; rfl

@[simp] theorem emit_len (s : State) (p : List Byte) :
    (s.emit p).regs.len = BitVec.ofNat 16 (frameOf s.regs.mode s.regs.txn p).length := by
  cases hmode : s.regs.mode with
  | rtu => rw [emit_rtu hmode, frameOf, rtuFrame_length]; rfl
  | mbap => rw [emit_mbap hmode, frameOf, mbapFrame_length]; rfl

theorem emit_sameOutside (s : State) (p : List Byte) : SameOutside s (s.emit p) := by
  cases hmode : s.regs.mode with
  | rtu => rw [emit_rtu hmode]; exact ⟨rfl, rfl, rfl⟩
  | mbap => rw [emit_mbap hmode]; exact ⟨rfl, rfl, rfl⟩

/-- Emit loads the frame of the current mode, when its length fits in LEN. -/
theorem emit_loaded {s : State} {p : List Byte} (hfits : (frameOf s.regs.mode s.regs.txn p).length < 2 ^ 16) :
    Loaded (s.emit p) (frameOf s.regs.mode s.regs.txn p) := by
  refine ⟨?_, fun k hk => ?_⟩
  · rw [emit_len, BitVec.toNat_ofNat, Nat.mod_eq_of_lt hfits]
  · rw [emit_bufByte, bufByte_writeBuf, dif_pos ⟨Nat.zero_le k, by omega⟩]
    rfl

/-- Emit writes no byte beyond the frame (R98). -/
theorem emit_bufByte_beyond {s : State} {p : List Byte} {k : Nat}
    (hk : (frameOf s.regs.mode s.regs.txn p).length ≤ k) : (s.emit p).bufByte k = s.bufByte k := by
  rw [emit_bufByte, bufByte_writeBuf, dif_neg (by omega)]

/-! ## A completed Emit -/

/-- What an encoder leaves, for a body `p` whose frame `f` has `n` bytes and an Emit that commits the registers `r`. -/
theorem complete_emit {s : State} {p f : List Byte} {n : Nat} {r : Regs}
    (hframe : frameOf s.regs.mode s.regs.txn p = f) (hn : f.length = n) (hfits : n < 2 ^ 16)
    (hregs : (s.emit p).regs = r) :
    Recorded s ((s.emit p).complete .ok) 0#8 r ∧ Loaded ((s.emit p).complete .ok) f ∧
      ∀ k, n ≤ k → ((s.emit p).complete .ok).bufByte k = s.bufByte k := by
  subst hframe hn hregs
  exact ⟨complete_recorded (emit_sameOutside s p) .ok, emit_loaded hfits, fun k hk => emit_bufByte_beyond hk⟩

/-- What an encoder in RTU mode leaves, for a body `p` whose frame has `n` bytes. -/
theorem complete_emit_rtu {s : State} {p : List Byte} {n : Nat} (hmode : s.regs.mode = .rtu) (hn : p.length + 2 = n)
    (hfits : n < 2 ^ 16) :
    Recorded s ((s.emit p).complete .ok) 0#8 { s.regs with crc := crc16 p, len := BitVec.ofNat 16 n } ∧
      Loaded ((s.emit p).complete .ok) (rtuFrame p) ∧
      ∀ k, n ≤ k → ((s.emit p).complete .ok).bufByte k = s.bufByte k := by
  have hframe : frameOf s.regs.mode s.regs.txn p = rtuFrame p := by rw [hmode, frameOf]
  exact complete_emit hframe ((rtuFrame_length p).trans hn) hfits (by rw [emit_rtu hmode, hn]; rfl)

/-- What an encoder in MBAP mode leaves, for a body `p` whose frame `f` has `n` bytes. -/
theorem complete_emit_mbap {s : State} {p f : List Byte} {n : Nat} (hmode : s.regs.mode = .mbap)
    (hf : mbapFrame s.regs.txn p = f) (hn : 6 + p.length = n) (hfits : n < 2 ^ 16) :
    Recorded s ((s.emit p).complete .ok) 0#8 { s.regs with len := BitVec.ofNat 16 n } ∧
      Loaded ((s.emit p).complete .ok) f ∧
      ∀ k, n ≤ k → ((s.emit p).complete .ok).bufByte k = s.bufByte k := by
  subst hf
  have hframe : frameOf s.regs.mode s.regs.txn p = mbapFrame s.regs.txn p := by rw [hmode, frameOf]
  exact complete_emit hframe ((mbapFrame_length _ p).trans hn) hfits (by rw [emit_mbap hmode, hn]; rfl)

/-! ## Counts of at most one byte, as 16-bit fields -/

theorem lo8_ofNat (n : Nat) : lo8 (BitVec.ofNat 16 n) = BitVec.ofNat 8 n := by
  apply BitVec.eq_of_toNat_eq
  simp only [lo8, BitVec.extractLsb'_toNat, BitVec.toNat_ofNat]
  omega

theorem hi8_ofNat {n : Nat} (h : n < 256) : hi8 (BitVec.ofNat 16 n) = 0#8 := by
  apply BitVec.eq_of_toNat_eq
  simp only [hi8, BitVec.extractLsb'_toNat, BitVec.toNat_ofNat]
  omega

/-- The MBAP frame of a short body: the length field is one byte (R64). -/
theorem mbapFrame_short (t : Half) {p : List Byte} (h : p.length < 256) :
    mbapFrame t p = [hi8 t, lo8 t, 0#8, 0#8, 0#8, BitVec.ofNat 8 p.length] ++ p := by
  rw [mbapFrame, hi8_ofNat h, lo8_ofNat]

/-- The write request of `n` values, `n` a register byte: the quantity field is that byte (R67). -/
theorem writeRequest_short (u f : Byte) (a : Half) {n : Byte} {vs : List Half} (hn : n.toNat = vs.length) :
    writeRequest u f a vs =
      [u, f, hi8 a, lo8 a, 0#8, n, BitVec.ofNat 8 (2 * vs.length)] ++ wordBytes vs := by
  rw [writeRequest, ← hn, hi8_ofNat n.isLt, lo8_ofNat, BitVec.ofNat_toNat, BitVec.setWidth_eq]

/-! ## ENC_READ -/

theorem exec_encRead_outOfRange {s : State} (h : s.regs.count.toNat < 1 ∨ 125 < s.regs.count.toNat) :
    exec .encRead s = finished (.invalidArgument, s) :=
  congrArg finished (if_pos h)

theorem exec_encRead_inRange {s : State} (hmin : 1 ≤ s.regs.count.toNat) (hmax : s.regs.count.toNat ≤ 125) :
    exec .encRead s =
      finished (.ok, s.emit (readRequest s.regs.unit s.regs.func s.regs.addr s.regs.count)) :=
  congrArg finished (if_neg (not_or.mpr ⟨Nat.not_lt.mpr hmin, Nat.not_lt.mpr hmax⟩))

/-- Settles O37: in range, ENC_READ emits the six-byte read request, which is the body `p`. -/
theorem encReadResult : Obligations.EncReadResult := by
  refine fun s => ⟨fun hout => failsWith_of_finished (exec_encRead_outOfRange hout), fun p hmin hmax hp => ?_⟩
  have hexec : exec .encRead s = finished (.ok, s.emit p) := hp ▸ exec_encRead_inRange hmin hmax
  have hlen : p.length = 6 := by rw [hp]; rfl
  refine ⟨(s.emit p).complete .ok, hexec, emit_wordAt s p, fun hmode => ?_, fun hmode => ?_⟩
  · exact complete_emit_rtu hmode (by omega) (by decide)
  · have hframe := mbapFrame_short s.regs.txn (p := p) (by omega)
    rw [hlen] at hframe
    exact complete_emit_mbap hmode hframe (by omega) (by decide)

/-! ## ENC_WRITE -/

theorem exec_encWrite_outOfRange {s : State} (h : s.regs.nwords.toNat < 1 ∨ 123 < s.regs.nwords.toNat) :
    exec .encWrite s = finished (.invalidArgument, s) :=
  congrArg finished (if_pos h)

theorem exec_encWrite_inRange {s : State} (hmin : 1 ≤ s.regs.nwords.toNat) (hmax : s.regs.nwords.toNat ≤ 123) :
    exec .encWrite s = finished (.ok, s.emit
      (writeRequest s.regs.unit s.regs.func s.regs.addr (s.wordsUpTo s.regs.nwords.toNat))) :=
  congrArg finished (if_neg (not_or.mpr ⟨Nat.not_lt.mpr hmin, Nat.not_lt.mpr hmax⟩))

/-- `WORDS[0..n)` is any list of `n` values that WORDS holds. -/
theorem wordsUpTo_eq {s : State} {n : Nat} {vs : List Half} (hn : n = vs.length)
    (h : ∀ j (hj : j < vs.length), s.wordAt j = vs[j]) : s.wordsUpTo n = vs := by
  refine List.ext_getElem (by rw [wordsUpTo_length, hn]) fun j _ hj => ?_
  simp only [State.wordsUpTo, List.getElem_map, List.getElem_range]
  exact h j hj

/-- Settles O38: in range, ENC_WRITE emits the write request of the values in WORDS, which is the body `p`, of
`7 + 2n < 256` bytes. -/
theorem encWriteResult : Obligations.EncWriteResult := by
  refine fun s => ⟨fun hout => failsWith_of_finished (exec_encWrite_outOfRange hout),
    fun vs p hmin hmax hn hwords hp => ?_⟩
  have hbody : writeRequest s.regs.unit s.regs.func s.regs.addr vs = p :=
    (writeRequest_short _ _ _ hn).trans hp.symm
  have hexec := exec_encWrite_inRange (Nat.le_trans hmin (Nat.le_of_eq hn.symm)) (Nat.le_trans (Nat.le_of_eq hn) hmax)
  rw [wordsUpTo_eq hn hwords, hbody] at hexec
  have hlen : p.length = 7 + 2 * vs.length := by rw [← hbody, writeRequest_length]
  refine ⟨(s.emit p).complete .ok, hexec, emit_wordAt s p, fun hmode => ?_, fun hmode => ?_⟩
  · exact complete_emit_rtu hmode (by omega) (by omega)
  · have hframe := mbapFrame_short s.regs.txn (p := p) (by omega)
    rw [hlen] at hframe
    exact complete_emit_mbap hmode hframe (by omega) (by omega)

end Sys2Proof.Machine
end

section
/-! DECODE on an intact frame (43_decode.md R102 to R106): what stages S3 to S8 answer on a frame that S1 and S2 accept, by
its function code and its payload. -/
namespace Sys2Proof.Machine

/-! ## Bytes held in BUF -/

/-- BUF holds the bytes `p` from index `o` on. -/
def HoldsAt (s : State) (o : Nat) (p : List Byte) : Prop := ∀ k (h : k < p.length), s.bufByte (o + k) = p[k]

@[simp] theorem holdsAt_nil (s : State) (o : Nat) : HoldsAt s o [] := fun _ h => absurd h (Nat.not_lt_zero _)

@[simp] theorem holdsAt_cons {s : State} {o : Nat} {b : Byte} {p : List Byte} :
    HoldsAt s o (b :: p) ↔ s.bufByte o = b ∧ HoldsAt s (o + 1) p := by
  constructor
  · intro h
    refine ⟨h 0 (Nat.zero_lt_succ _), fun k hk => ?_⟩
    have hindex : o + 1 + k = o + (k + 1) := by omega
    rw [hindex, h (k + 1) (Nat.succ_lt_succ hk)]
    rfl
  · rintro ⟨hb, hp⟩ k hk
    cases k with
    | zero => exact hb
    | succ k =>
      have hindex : o + (k + 1) = o + 1 + k := by omega
      rw [hindex, hp k (Nat.lt_of_succ_lt_succ hk)]
      rfl

/-- A 16-bit field of the frame is the one whose two bytes BUF holds. -/
theorem field16_eq {s : State} {i : Nat} {v : Half} (hhi : s.bufByte i = hi8 v) (hlo : s.bufByte (i + 1) = lo8 v) :
    s.field16 i = v := by
  rw [State.field16, hhi, hlo, be16_hi8_lo8]

/-- Where BUF holds the bytes of words, its 16-bit fields are those words. -/
theorem field16_wordBytes {s : State} (ws : List Half) : ∀ {o : Nat}, HoldsAt s o (wordBytes ws) →
    ∀ j (h : j < ws.length), s.field16 (o + 2 * j) = ws[j] := by
  induction ws with
  | nil => exact fun _ j h => absurd h (Nat.not_lt_zero j)
  | cons w ws ih =>
    intro o hheld j hj
    obtain ⟨hhi, hlo, hrest⟩ : s.bufByte o = hi8 w ∧ s.bufByte (o + 1) = lo8 w ∧ HoldsAt s (o + 2) (wordBytes ws) := by
      simpa [wordBytes] using hheld
    cases j with
    | zero => exact field16_eq hhi hlo
    | succ j =>
      have hindex : o + 2 * (j + 1) = o + 2 + 2 * j := by omega
      rw [hindex, ih hrest j (Nat.lt_of_succ_lt_succ hj)]
      rfl

/-- The reply words of a layout are the words whose bytes BUF holds at its start. -/
theorem replyWords_eq {s : State} {y : Layout} {ws : List Half} (hheld : HoldsAt s y.start (wordBytes ws))
    (hn : y.n = ws.length) : s.replyWords y = ws := by
  refine List.ext_getElem (by simp [State.replyWords, hn]) fun j _ hj => ?_
  simpa [State.replyWords] using field16_wordBytes ws hheld j hj

/-! ## An intact frame -/

/-- Stages S1 and S2 take the frame in BUF apart as `x`, with unit id `u`, function code `f` and payload `d`. -/
structure Intact (s : State) (x : Framed) (u f : Byte) (d : List Byte) : Prop where
  framed : s.framed = .ok x
  length : x.b = d.length + 2
  txn : x.t = if s.regs.mode = .mbap then s.regs.txn else 0#16
  unit : s.bufByte x.o = u
  func : s.bufByte (x.o + 1) = f
  payload : HoldsAt s (x.o + 2) d

/-- A loaded frame of the current mode is intact (R100, R101). -/
theorem exists_intact {s : State} {u f : Byte} {d : List Byte}
    (hloaded : Loaded s (frameOf s.regs.mode s.regs.txn ([u, f] ++ d)))
    (hfits : (frameOf s.regs.mode s.regs.txn ([u, f] ++ d)).length ≤ 260) : ∃ x, Intact s x u f d := by
  obtain ⟨o, hframed, hheld⟩ := framed_frameOf (p := [u, f] ++ d) (by simp) hfits hloaded
  obtain ⟨hunit, hfunc, hpayload⟩ : s.bufByte o = u ∧ s.bufByte (o + 1) = f ∧ HoldsAt s (o + 2) d := by
    simpa only [List.cons_append, List.nil_append, holdsAt_cons] using (show HoldsAt s o ([u, f] ++ d) from hheld)
  exact ⟨_, hframed, rfl, rfl, hunit, hfunc, hpayload⟩

section
variable {s : State} {x : Framed} {u f : Byte} {d : List Byte} {a q : Half} {bc : Byte} {p : List Byte}

theorem Intact.exec_decode (hx : Intact s x u f d) : exec .decode s = finished (s.decodeBody x) := by
  simp only [exec, execDecode, runDecode, hx.framed]

theorem Intact.failsWith (hx : Intact s x u f d) {code : ResultCode} (h : s.decodeBody x = (code, s)) :
    FailsWith .decode s code.toByte :=
  failsWith_of_finished (by rw [hx.exec_decode, h])

/-! ## S3 to S5: exception responses and unexpected functions -/

/-- S3 and S4: bit 7 of the function code marks an exception response, of one payload byte (R102). -/
theorem Intact.decodeBody_exception (hx : Intact s x u f d) (hbit : f.getLsbD 7 = true) :
    s.decodeBody x =
      if d.length < 1 then (.shortFrame, s)
      else if d.length > 1 then (.longFrame, s)
      else (.exceptionResponse, (s.setReplyHead u f).setReplyExc (s.bufByte (x.o + 2))) := by
  have hshort : d.length + 2 < 3 ↔ d.length < 1 := by omega
  have hlong : d.length + 2 > 3 ↔ d.length > 1 := by omega
  simp only [State.decodeBody, hx.func, hx.unit, hx.length, hbit, if_true, hshort, hlong]

/-- S5: another function code than FUNC (R103). -/
theorem Intact.decodeBody_unexpected (hx : Intact s x u f d) (hbit : f.getLsbD 7 = false) (hne : f ≠ s.regs.func) :
    s.decodeBody x = (.unexpectedFunction, s.setReplyHead u f) := by
  simp only [State.decodeBody, hx.func, hx.unit, hbit, Bool.false_eq_true, if_false, if_pos hne]

/-- Settles O42: the three payload lengths are the three branches of S4. -/
theorem decodeExceptionResponse : Obligations.DecodeExceptionResponse := by
  intro s u f d hbit hloaded hfits
  obtain ⟨x, hx⟩ := exists_intact hloaded hfits
  have hbody := hx.decodeBody_exception hbit
  refine ⟨?_, fun hlong => ?_, ?_⟩
  · rintro rfl
    exact hx.failsWith (code := .shortFrame) hbody
  · have hnot : ¬ d.length < 1 := by omega
    rw [if_neg hnot, if_pos hlong] at hbody
    exact hx.failsWith (code := .longFrame) hbody
  · rintro e rfl
    have hexc : s.bufByte (x.o + 2) = e := (holdsAt_cons.mp hx.payload).1
    refine ⟨((s.setReplyHead u f).setReplyExc e).complete .exceptionResponse, ?_,
      complete_recorded ⟨rfl, rfl, rfl⟩ .exceptionResponse, fun _ => rfl, fun _ => rfl⟩
    rw [hx.exec_decode, hbody, hexc]
    rfl

/-- Settles O43: S5 sets RSP_UNIT and RSP_FUNC before it fails. -/
theorem decodeUnexpectedFunction : Obligations.DecodeUnexpectedFunction := by
  intro s u f d hbit hne hloaded hfits
  obtain ⟨x, hx⟩ := exists_intact hloaded hfits
  refine ⟨(s.setReplyHead u f).complete .unexpectedFunction, ?_,
    complete_recorded ⟨rfl, rfl, rfl⟩ .unexpectedFunction, fun _ => rfl, fun _ => rfl⟩
  rw [hx.exec_decode, hx.decodeBody_unexpected hbit hne]
  rfl

/-! ## S6 to S8: the layouts -/

/-- The layout of the expected function `f`: the write layout for 0x10, else the read layout (S6, S7). -/
def State.layout (f : Byte) (x : Framed) (s : State) : Except ResultCode Layout :=
  if f = 0x10#8 then s.writeLayout x.o x.b else s.readLayout x.o x.b

theorem layout_write (s : State) (x : Framed) : s.layout 0x10#8 x = s.writeLayout x.o x.b := if_pos rfl

theorem layout_read {f : Byte} (h : f ≠ 0x10#8) (s : State) (x : Framed) : s.layout f x = s.readLayout x.o x.b :=
  if_neg h

/-- A layout's error ends DECODE with nothing committed. -/
theorem Intact.decodeBody_error (hx : Intact s x u f d) (hbit : f.getLsbD 7 = false) (hfunc : s.regs.func = f)
    {code : ResultCode} (h : s.layout f x = .error code) : s.decodeBody x = (code, s) := by
  subst hfunc
  simp only [State.layout] at h
  simp only [State.decodeBody, hx.func, hbit, Bool.false_eq_true, if_false, ne_eq, not_true_eq_false, h]

/-- A layout that succeeds is committed (S8). -/
theorem Intact.decodeBody_commit (hx : Intact s x u f d) (hbit : f.getLsbD 7 = false) (hfunc : s.regs.func = f)
    {y : Layout} (h : s.layout f x = .ok y) : s.decodeBody x = (.ok, s.commitReply u f x.t y) := by
  subst hfunc
  simp only [State.layout] at h
  simp only [State.decodeBody, hx.func, hx.unit, hbit, Bool.false_eq_true, if_false, ne_eq, not_true_eq_false, h]

/-- A layout that fails writes nothing but the result. -/
theorem Intact.failsWith_of_layout (hx : Intact s x u f d) (hbit : f.getLsbD 7 = false) (hfunc : s.regs.func = f)
    {code : ResultCode} (h : s.layout f x = .error code) : FailsWith .decode s code.toByte :=
  hx.failsWith (hx.decodeBody_error hbit hfunc h)

/-- A layout that succeeds, with `ws` the words in BUF from its start on, commits the reply (R106). -/
theorem Intact.replied_of_layout (hx : Intact s x u f d) (hbit : f.getLsbD 7 = false) (hfunc : s.regs.func = f)
    {y : Layout} {ws : List Half} (h : s.layout f x = .ok y) (hheld : HoldsAt s y.start (wordBytes ws))
    (hn : y.n = ws.length) : ∃ t, exec .decode s = .next t ∧ Replied s t u f y.addr y.qty ws := by
  have hwords : s.replyWords y = ws := replyWords_eq hheld hn
  have hread (j : Nat) : ((s.commitReply u f x.t y).complete .ok).wordAt j = (s.writeWords 0 ws).wordAt j := by
    rw [← hwords]
    rfl
  refine ⟨(s.commitReply u f x.t y).complete .ok, ?_, ?_, fun _ => rfl, fun j hj => ?_, fun j hj => ?_⟩
  · rw [hx.exec_decode, hx.decodeBody_commit hbit hfunc h]
    rfl
  · rw [← hx.txn, ← hn]
    exact complete_recorded ⟨rfl, rfl, rfl⟩ .ok
  · rw [hread, wordAt_writeWords, dif_pos ⟨Nat.zero_le j, by omega⟩]
    rfl
  · rw [hread, wordAt_writeWords, dif_neg (by omega)]

/-! ## The write layout -/

/-- A payload too short for the address and the quantity (R104). -/
theorem Intact.layout_write_short (hx : Intact s x u f d) (h : d.length < 4) :
    s.layout 0x10#8 x = .error .shortFrame := by
  have hb : x.b < 6 := by rw [hx.length]; omega
  rw [layout_write]
  exact if_pos hb

/-- The two fields that head a payload of the write layout. -/
theorem Intact.writeHead
    (hx : Intact s x u f ([hi8 a, lo8 a, hi8 q, lo8 q] ++ p)) :
    s.field16 (x.o + 2) = a ∧ s.field16 (x.o + 4) = q ∧ HoldsAt s (x.o + 6) p := by
  obtain ⟨ha, ha', hq, hq', hp⟩ : s.bufByte (x.o + 2) = hi8 a ∧ s.bufByte (x.o + 3) = lo8 a ∧
      s.bufByte (x.o + 4) = hi8 q ∧ s.bufByte (x.o + 5) = lo8 q ∧ HoldsAt s (x.o + 6) p := by
    simpa using hx.payload
  exact ⟨field16_eq ha ha', field16_eq hq hq', hp⟩

/-- The echo form: nothing follows the quantity (R104). -/
theorem Intact.layout_write_echo
    (hx : Intact s x u f [hi8 a, lo8 a, hi8 q, lo8 q]) : s.layout 0x10#8 x = .ok ⟨a, q, x.o + 7, 0⟩ := by
  obtain ⟨ha, hq, -⟩ := hx.writeHead (p := [])
  have hb : x.b = 6 := hx.length
  rw [layout_write, hb]
  simp only [State.writeLayout, ha, hq, Nat.lt_irrefl, if_false, if_true]

/-- The request-echo form: a byte count and the bytes `p` follow the quantity (R104). -/
theorem Intact.layout_write_values (hx : Intact s x u f ([hi8 a, lo8 a, hi8 q, lo8 q, bc] ++ p)) :
    s.layout 0x10#8 x =
      if p.length < bc.toNat then .error .shortFrame
      else if p.length > bc.toNat then .error .longFrame
      else if bc.toNat % 2 = 1 then .error .malformed
      else if bc.toNat / 2 ≠ q.toNat then .error .malformed
      else .ok ⟨a, q, x.o + 7, bc.toNat / 2⟩ := by
  obtain ⟨ha, hq, hp⟩ := hx.writeHead (p := bc :: p)
  have hbc : s.bufByte (x.o + 6) = bc := (holdsAt_cons.mp hp).1
  have hb : x.b = 7 + p.length := hx.length.trans (Nat.add_comm p.length 7)
  have hhead : ¬ 7 + p.length < 6 := by omega
  have hecho : ¬ 7 + p.length = 6 := by omega
  rw [layout_write, hb]
  simp only [State.writeLayout, ha, hq, hbc, if_neg hhead, if_neg hecho, Nat.add_lt_add_iff_left, gt_iff_lt]

/-- Settles O44: the payload selects a branch of the write layout, and `replied_of_layout` gives the success commit. -/
theorem decodeWriteLayout : Obligations.DecodeWriteLayout := by
  intro s u d hfunc hloaded hfits
  obtain ⟨x, hx⟩ := exists_intact hloaded hfits
  have hbit : (0x10#8).getLsbD 7 = false := by decide
  refine ⟨fun hshort => hx.failsWith_of_layout hbit hfunc (hx.layout_write_short hshort), ?_, ?_⟩
  · rintro a q rfl
    exact hx.replied_of_layout hbit hfunc hx.layout_write_echo (holdsAt_nil s _) rfl
  · rintro a q bc p rfl
    have hlayout := hx.layout_write_values
    refine ⟨fun hshort => ?_, fun hlong => ?_, fun hlen hodd => ?_, fun hlen heven hqty => ?_, ?_⟩
    · rw [if_pos hshort] at hlayout
      exact hx.failsWith_of_layout hbit hfunc hlayout
    · rw [if_neg (Nat.lt_asymm hlong), if_pos hlong] at hlayout
      exact hx.failsWith_of_layout hbit hfunc hlayout
    · rw [if_neg (by omega), if_neg (by omega), if_pos hodd] at hlayout
      exact hx.failsWith_of_layout hbit hfunc hlayout
    · rw [if_neg (by omega), if_neg (by omega), if_neg (by omega), if_pos hqty] at hlayout
      exact hx.failsWith_of_layout hbit hfunc hlayout
    · rintro ws rfl hbc hqty
      have hlen := wordBytes_length ws
      rw [if_neg (by omega), if_neg (by omega), if_neg (by omega), if_neg (by omega)] at hlayout
      obtain ⟨-, -, hp⟩ := hx.writeHead (p := bc :: wordBytes ws)
      exact hx.replied_of_layout hbit hfunc hlayout (holdsAt_cons.mp hp).2 (by simp only; omega)

/-! ## The read layout -/

/-- A payload without a byte count (R105). -/
theorem Intact.layout_read_empty (hx : Intact s x u f []) (hread : f ≠ 0x10#8) :
    s.layout f x = .error .shortFrame := by
  have hb : x.b < 3 := by rw [hx.length]; decide
  rw [layout_read hread]
  exact if_pos hb

/-- A byte count and the bytes `p` (R105). -/
theorem Intact.layout_read_values (hx : Intact s x u f ([bc] ++ p)) (hread : f ≠ 0x10#8) :
    s.layout f x =
      if p.length < bc.toNat then .error .shortFrame
      else if p.length > bc.toNat then .error .longFrame
      else if bc.toNat % 2 = 1 then .error .malformed
      else .ok ⟨0#16, 0#16, x.o + 3, bc.toNat / 2⟩ := by
  have hbc : s.bufByte (x.o + 2) = bc := (holdsAt_cons.mp hx.payload).1
  have hb : x.b = 3 + p.length := hx.length.trans (Nat.add_comm p.length 3)
  have hhead : ¬ 3 + p.length < 3 := by omega
  rw [layout_read hread, hb]
  simp only [State.readLayout, hbc, if_neg hhead, Nat.add_lt_add_iff_left, gt_iff_lt]

/-- Settles O45: the payload selects a branch of the read layout, and `replied_of_layout` gives the success commit. -/
theorem decodeReadLayout : Obligations.DecodeReadLayout := by
  intro s u f d hbit hread hfunc hloaded hfits
  obtain ⟨x, hx⟩ := exists_intact hloaded hfits
  constructor
  · rintro rfl
    exact hx.failsWith_of_layout hbit hfunc (hx.layout_read_empty hread)
  · rintro bc p rfl
    have hlayout := hx.layout_read_values hread
    refine ⟨fun hshort => ?_, fun hlong => ?_, fun hlen hodd => ?_, ?_⟩
    · rw [if_pos hshort] at hlayout
      exact hx.failsWith_of_layout hbit hfunc hlayout
    · rw [if_neg (Nat.lt_asymm hlong), if_pos hlong] at hlayout
      exact hx.failsWith_of_layout hbit hfunc hlayout
    · rw [if_neg (by omega), if_neg (by omega), if_pos hodd] at hlayout
      exact hx.failsWith_of_layout hbit hfunc hlayout
    · rintro ws rfl hbc
      have hlen := wordBytes_length ws
      rw [if_neg (by omega), if_neg (by omega), if_neg (by omega)] at hlayout
      exact hx.replied_of_layout hbit hfunc hlayout (holdsAt_cons.mp hx.payload).2 (by simp only; omega)

end

end Sys2Proof.Machine
end

section
/-! The two resets (70_reset_and_hazards.md R125): each sets the registers to `Regs.reset` and PENDING to none, and
`atReset_of_regs` reads the table off that. -/
namespace Sys2Proof.Machine

theorem hardReset_atReset (s : State) : AtReset s.hardReset :=
  atReset_of_regs (hardReset_regs s) (hardReset_pending s)

theorem softReset_atReset (s : State) : AtReset s.softReset :=
  atReset_of_regs (softReset_regs s) (softReset_pending s)

theorem exec_softReset (s : State) : exec .softReset s = .next s.softReset := rfl

/-- Settles O1: both steps answer with a reset state, whatever the block held before. -/
theorem resetValues : Obligations.ResetValues := by
  intro s rest
  constructor
  · exact ⟨_, step_hardReset s rest, hardReset_atReset _⟩
  · exact ⟨_, exec_softReset s, softReset_atReset s⟩

end Sys2Proof.Machine
end

section
/-! Encoding and decoding are inverse (30_encoding.md R57 to R59). -/
namespace Sys2Proof.Machine

/-- A word that R58 does not define decodes to the illegal command. -/
theorem decodeCommand_illegal {w : Word} (hw : (Instr.illegal w).wf = true) : decodeCommand w = .illegal w := by
  rcases decodeCommand_cases w with ⟨rfl, -⟩ | ⟨rfl, -⟩ | ⟨rfl, -⟩ | ⟨rfl, -⟩ | ⟨rfl, -⟩ | ⟨rfl, -⟩ | ⟨rfl, -⟩ |
    ⟨rfl, -⟩ | ⟨rfl, -⟩ | ⟨-, h⟩
  case inr.inr.inr.inr.inr.inr.inr.inr.inr => exact h
  all_goals exact absurd hw (by decide)

/-- A command word always decodes to a well-formed operation. -/
theorem decodeCommand_wf (w : Word) : (decodeCommand w).wf = true := by
  rcases decodeCommand_cases w with ⟨-, h⟩ | ⟨-, h⟩ | ⟨-, h⟩ | ⟨-, h⟩ | ⟨-, h⟩ | ⟨-, h⟩ | ⟨-, h⟩ | ⟨-, h⟩ | ⟨-, h⟩ |
    ⟨hundefined, h⟩
  case inr.inr.inr.inr.inr.inr.inr.inr.inr => rw [h, Instr.wf, hundefined]; rfl
  all_goals rw [h]; rfl

/-- Settles O7: a defined operation has a literal word, an illegal word is kept whole by `decodeCommand_illegal`, and the
two register writes carry their data unchanged. -/
theorem decodeOfEncode : Obligations.DecodeOfEncode := by
  intro i hwf
  cases i with
  | illegal w => exact (decodeWrite_cmd w).trans (congrArg _ (decodeCommand_illegal hwf))
  | crcData v => exact decodeWrite_crcData v
  | statusClear v => exact decodeWrite_status v
  | nop | crcInit | crcBuf | crcCheck | crcAppend | encRead | encWrite | decode | softReset => rfl

/-- Settles O8: the offset of the write selects how it decodes, and `encode_decodeCommand` covers the CMD writes. -/
theorem encodeOfDecode : Obligations.EncodeOfDecode := by
  intro off v i h
  rcases decodeWrite_ok h with ⟨rfl, rfl⟩ | ⟨rfl, rfl⟩ | ⟨rfl, rfl⟩
  · exact ⟨encode_decodeCommand v, decodeCommand_wf v⟩
  · exact ⟨rfl, rfl⟩
  · exact ⟨rfl, rfl⟩

end Sys2Proof.Machine
end

section
/-! What a frame that the block's own formats give decodes to (43_decode.md R107), in either framing. -/
namespace Sys2Proof.Machine

/-- Either framing adds at least two bytes to a body (R63, R64). -/
theorem length_add_two_le_frameOf (m : Framing) (t : Half) (p : List Byte) : p.length + 2 ≤ (frameOf m t p).length := by
  cases m with
  | rtu => exact Nat.le_of_eq (rtuFrame_length p).symm
  | mbap => rw [frameOf, mbapFrame_length]; omega

/-- Either framing adds at most six bytes to a body (R63, R64). -/
theorem frameOf_length_le (m : Framing) (t : Half) (p : List Byte) : (frameOf m t p).length ≤ p.length + 6 := by
  cases m with
  | rtu => rw [frameOf, rtuFrame_length]; omega
  | mbap => rw [frameOf, mbapFrame_length]; omega

/-- Settles O48: the reply's payload is a byte count of `2n` and the bytes of the words, the success clause of
`decodeReadLayout`; a frame that fits in BUF has `2n < 256`, so the byte count is exact. -/
theorem readReplyRoundTrip : Obligations.ReadReplyRoundTrip := by
  intro s u f ws hbit hread hfunc hfits hloaded
  have hbody : readReply u f ws = [u, f] ++ ([BitVec.ofNat 8 (2 * ws.length)] ++ wordBytes ws) := rfl
  have hlen : ws.length < 128 := by
    have := Nat.le_trans (length_add_two_le_frameOf _ _ _) hfits
    rw [readReply_length] at this
    omega
  have hcount : (BitVec.ofNat 8 (2 * ws.length)).toNat = 2 * ws.length := by
    rw [BitVec.toNat_ofNat, Nat.mod_eq_of_lt (by omega)]
  rw [hbody] at hfits hloaded
  obtain ⟨-, -, -, hsuccess⟩ := (decodeReadLayout s u f _ hbit hread hfunc hloaded hfits).2 _ _ rfl
  obtain ⟨t, hexec, ⟨hregs, -, -⟩, -, hwords, -⟩ := hsuccess ws rfl hcount
  refine ⟨t, hexec, ?_, ?_, ?_, ?_, hwords⟩ <;> rw [hregs]
  rw [BitVec.toNat_ofNat, Nat.mod_eq_of_lt (by omega)]

/-! ## A request that ENC_WRITE built -/

/-- The success of DECODE on a write request of `n` values, with FUNC = 0x10 (R104). -/
theorem replied_of_writeRequest {s : State} {u : Byte} {a : Half} {vs : List Half} (hfunc : s.regs.func = 0x10#8)
    (hn : vs.length ≤ 123)
    (hloaded : Loaded s (frameOf s.regs.mode s.regs.txn (writeRequest u 0x10#8 a vs))) :
    ∃ t, exec .decode s = .next t ∧ Replied s t u 0x10#8 a (BitVec.ofNat 16 vs.length) vs := by
  have hfits := frameOf_length_le s.regs.mode s.regs.txn (writeRequest u 0x10#8 a vs)
  rw [writeRequest_length] at hfits
  have hq : (BitVec.ofNat 16 vs.length).toNat = vs.length := by
    rw [BitVec.toNat_ofNat, Nat.mod_eq_of_lt (by omega)]
  have hcount : (BitVec.ofNat 8 (2 * vs.length)).toNat = 2 * vs.length := by
    rw [BitVec.toNat_ofNat, Nat.mod_eq_of_lt (by omega)]
  have hbody := decodeWriteLayout s u _ hfunc hloaded (Nat.le_trans hfits (by omega))
  obtain ⟨-, -, -, -, hsuccess⟩ := hbody.2.2 _ _ _ _ rfl
  exact hsuccess vs rfl hcount hq

/-- Of the registers Emit commits CRC and LEN alone (R94). -/
theorem emit_regs (s : State) (p : List Byte) : ∃ c n, (s.emit p).regs = { s.regs with crc := c, len := n } := by
  cases hmode : s.regs.mode with
  | rtu => exact ⟨_, _, by rw [emit_rtu hmode]; rfl⟩
  | mbap => exact ⟨s.regs.crc, _, by rw [emit_mbap hmode]; rfl⟩

/-- Settles O49: ENC_WRITE emits the write request of the values in WORDS, and DECODE of that request writes the same values
back where they stood. -/
theorem writeRequestRoundTrip : Obligations.WriteRequestRoundTrip := by
  intro s hfunc hmin hmax
  let vs := s.wordsUpTo s.regs.nwords.toNat
  let p := writeRequest s.regs.unit 0x10#8 s.regs.addr vs
  let t := (s.emit p).complete .ok
  have hlen : vs.length = s.regs.nwords.toNat := wordsUpTo_length s _
  have hencoded : exec .encWrite s = .next t := by
    rw [exec_encWrite_inRange hmin hmax, hfunc]
    rfl
  obtain ⟨c, n, hemit⟩ := emit_regs s p
  have hregs : t.regs = { s.regs with crc := c, len := n }.finish .ok := congrArg (Regs.finish .ok) hemit
  have hloaded : Loaded t (frameOf s.regs.mode s.regs.txn p) := by
    have hfits := frameOf_length_le s.regs.mode s.regs.txn p
    rw [writeRequest_length] at hfits
    exact emit_loaded (s := s) (by omega)
  obtain ⟨u, hdecoded, ⟨hu, -, -⟩, hbuf, hwords, hrest⟩ :=
    replied_of_writeRequest (s := t) (vs := vs) (a := s.regs.addr) (u := s.regs.unit) (by rw [hregs]; exact hfunc)
      (by omega) (by rw [hregs]; exact hloaded)
  refine ⟨t, u, hencoded, hdecoded, ?_, ?_, ?_, ?_, ?_, fun j => ?_, hbuf⟩
  case refine_6 =>
    rcases Nat.lt_or_ge j vs.length with hj | hj
    · rw [hwords j hj]
      simp [vs, State.wordsUpTo]
    · rw [hrest j hj]
      exact emit_wordAt s p j
  all_goals rw [hu]
  · rw [hlen, BitVec.ofNat_toNat, BitVec.setWidth_eq]
  · rw [hlen, BitVec.toNat_ofNat, Nat.mod_eq_of_lt (by omega)]

end Sys2Proof.Machine
end

section
/-! The turns of the agenda (40_command_control.md R77, 70_reset_and_hazards.md R124 to R127): hardware reset, the engine of
an idle and of a busy block, and the operations that run at their bus write. -/
namespace Sys2Proof.Machine

/-- Settles O3: hardware reset leaves a reset state whose buffers have no entry written, so each entry reads as the free
value of the new reset count. -/
theorem hardResetClearsBlock : Obligations.HardResetClearsBlock := fun s rest =>
  ⟨_, step_hardReset s rest, hardReset_atReset _, rfl, rfl, fun _ => rfl, fun _ => rfl⟩

/-- Settles O4: both steps are the engine's turn, which is not enabled. -/
theorem idleBlockDoesNothing : Obligations.IdleBlockDoesNothing := by
  intro s rest hidle
  constructor
  · exact (step_nil rfl).trans (engineTurn_idle (s := { s with agenda := [] }) hidle)
  · exact (step_engine s rest).trans (engineTurn_idle (s := { s with agenda := rest }) hidle)

/-- Settles O9: both steps are the engine's turn, which runs the command in PENDING. -/
theorem engineRunsPendingCommand : Obligations.EngineRunsPendingCommand := by
  intro s w rest hbusy hpending
  constructor
  · exact (step_engine s rest).trans (engineTurn_busy (s := { s with agenda := rest }) hbusy hpending)
  · exact (step_nil rfl).trans (engineTurn_busy (s := { s with agenda := [] }) hbusy hpending)

/-- An offset whose write is an operation is mapped (R58). -/
theorem targetOf_of_decodeWrite_ok {off : Off} {v : Word} {i : Instr} (h : decodeWrite off v = .ok i) :
    ∃ t, targetOf off = some t := by
  rcases decodeWrite_ok h with ⟨rfl, -⟩ | ⟨rfl, -⟩ | ⟨rfl, -⟩
  · exact ⟨_, targetOf_cmd⟩
  · exact ⟨_, targetOf_crcData⟩
  · exact ⟨_, targetOf_status⟩

/-- Settles O10: the write is answered OKAY, and an operation that runs at once is executed in that step. -/
theorem busWriteRunsOperation : Obligations.BusWriteRunsOperation := by
  intro s off v i rest hdecode hi
  obtain ⟨t, ht⟩ := targetOf_of_decodeWrite_ok hdecode
  have hatOnce : runsAtOnce i = true := by rcases hi with rfl | rfl | rfl <;> rfl
  rw [step_write ht]
  simp only [hostWrite, hdecode, if_pos hatOnce]

end Sys2Proof.Machine
end

section
/-! The address map and the accesses to mapped offsets (10_state.md R16, 20_memory.md R42 to R47). -/
namespace Sys2Proof.Machine

/-! ## What offsets name -/

/-- The offset of the target that an offset names is that offset (R16, R43). -/
theorem offset_of_targetOf {off : Off} {x : Target} (h : targetOf off = some x) : x.offset = off := by
  have haligned := targetOf_aligned h
  have hbound := off.isLt
  unfold targetOf at h
  rw [if_neg (not_not_intro haligned)] at h
  split at h
  · obtain ⟨r, hfind, rfl⟩ := Option.map_eq_some_iff.mp h
    have hoff : r.offset = off := by simpa using List.find?_some hfind
    exact hoff
  · split at h
    all_goals
      obtain ⟨-, hx⟩ := Option.ite_none_right_eq_some.mp h
      cases hx
      refine BitVec.eq_of_toNat_eq ?_
      rw [Target.offset, BitVec.toNat_ofNat, Nat.mod_eq_of_lt (by omega)]
      omega

/-- The twenty registers fill the offsets below 0x50 (R16). -/
theorem targetOf_isSome_of_register {off : Off} (haligned : off.toNat % 4 = 0) (h : off.toNat < 0x50) :
    (targetOf off).isSome = true := by
  have hall : ∀ k < 20, (targetOf (BitVec.ofNat 14 (4 * k))).isSome = true := by decide
  have hoff : BitVec.ofNat 14 (4 * (off.toNat / 4)) = off := by
    rw [Nat.mul_div_cancel' (Nat.dvd_of_mod_eq_zero haligned), BitVec.ofNat_toNat, BitVec.setWidth_eq]
  rw [← hoff]
  exact hall _ (by omega)

/-- A word-aligned offset outside the ranges of R45 names a target. -/
theorem targetOf_isSome_of_mapped {off : Off} (haligned : off.toNat % 4 = 0) (h : ¬ IsUnmapped off) :
    (targetOf off).isSome = true := by
  have hbound := off.isLt
  have hranges : off.toNat < 0x50 ∨ (0x1000 ≤ off.toNat ∧ off.toNat < 0x1410) ∨
      (0x2000 ≤ off.toNat ∧ off.toNat < 0x2200) := by
    unfold IsUnmapped at h
    omega
  rcases hranges with hreg | ⟨hlow, hhigh⟩ | ⟨hlow, hhigh⟩
  · exact targetOf_isSome_of_register haligned hreg
  · rw [targetOf_bufOffset (i := (off.toNat - 0x1000) / 4) (by omega) (by omega)]
    rfl
  · rw [targetOf_wordsOffset (j := (off.toNat - 0x2000) / 4) (by omega) (by omega)]
    rfl

/-- Settles O26: the map inverts `Target.offset`, and an offset that is aligned and in no range of R45 is named. -/
theorem addressMapIsOneToOne : Obligations.AddressMapIsOneToOne := by
  refine ⟨fun off x h => offset_of_targetOf h, fun off => ⟨fun hnone => ?_, ?_⟩⟩
  · by_cases haligned : off.toNat % 4 = 0
    · by_cases hunmapped : IsUnmapped off
      · exact .inr hunmapped
      · have hsome := targetOf_isSome_of_mapped haligned hunmapped
        rw [hnone] at hsome
        cases hsome
    · exact .inl haligned
  · rintro (hmisaligned | hunmapped)
    · exact targetOf_misaligned hmisaligned
    · exact targetOf_unmapped hunmapped

/-- Settles O27: a 14-bit offset is inside the window of 0x4000 bytes. -/
theorem windowFollowsBaseAddr : Obligations.WindowFollowsBaseAddr := by
  refine fun base addr => ⟨fun off => ?_, fun houtside => if_neg (by simp only [Config.winBytes]; omega)⟩
  have hwindow : base ≤ base + off.toNat ∧ base + off.toNat < base + Config.winBytes :=
    ⟨Nat.le_add_right _ _, Nat.add_lt_add_left off.isLt base⟩
  rw [windowOffset, if_pos hwindow, Nat.add_sub_cancel_left, BitVec.ofNat_toNat, BitVec.setWidth_eq]

/-- The number of a buffer entry's offset, for an entry inside the window. -/
theorem toNat_entryOffset {n : Nat} (h : n < 0x4000) : (BitVec.ofNat 14 n).toNat = n := by
  rw [BitVec.toNat_ofNat, Nat.mod_eq_of_lt h]

/-! ## Reads -/

/-- The table of R16 to R36, register by register. -/
theorem registerReads_eq (r : Regs) : registerReads r = Reg.all.map fun x => (x.offset, r.read x) := by
  have hctrl : bitWord (r.mode == .mbap) 0 ||| bitWord r.irqEn 1 = r.ctrlWord := by
    rw [Regs.ctrlWord]
    generalize (r.mode == .mbap) = mode
    cases mode <;> cases r.irqEn <;> rfl
  have hstatus : bitWord r.busy 0 ||| bitWord r.done 1 ||| bitWord r.err 2 ||| bitWord r.werr 3 = r.statusWord := by
    rw [Regs.statusWord]
    cases r.busy <;> cases r.done <;> cases r.err <;> cases r.werr <;> rfl
  rw [registerReads, hctrl, hstatus]
  rfl

theorem Reg.mem_all (x : Reg) : x ∈ Reg.all := by cases x <;> decide

/-- A row of the table is a register's offset with what that register reads as. -/
theorem mem_registerReads {r : Regs} {off : Off} {w : Word} :
    (off, w) ∈ registerReads r ↔ ∃ x : Reg, x.offset = off ∧ r.read x = w := by
  simp [registerReads_eq, Reg.mem_all]

/-- Settles O22: the offset of each row, BUF entry or WORDS entry names its target, and `step_read` returns that. -/
theorem readsReturnFieldsOnly : Obligations.ReadsReturnFieldsOnly := by
  refine fun s rest => ⟨fun ⟨off, w⟩ hrow => ?_, fun i hi => ?_, fun j hj => ?_⟩
  · obtain ⟨x, rfl, rfl⟩ := mem_registerReads.mp hrow
    exact step_read (targetOf_offset x) s rest
  · exact step_read (targetOf_bufOffset hi (toNat_entryOffset (by omega))) s rest
  · exact step_read (targetOf_wordsOffset hj (toNat_entryOffset (by omega))) s rest

/-! ## Stores -/

/-- A store to an idle block is made (R46). -/
theorem step_store_idle {s : State} (hidle : s.regs.busy = false) {off : Off} {t : Target} (ht : targetOf off = some t)
    (hstorable : t.storable = true) (h : off ≠ cmdOffset ∧ off ≠ crcDataOffset ∧ off ≠ statusOffset) (v : Word)
    (rest : List Turn) :
    step (s.facing (.memWrite off v) rest) = .next ((s.answered (.written .okay) rest).storeTarget v t) := by
  have hstore : (s.answered (.written .okay) rest).busStore t v = (s.answered (.written .okay) rest).storeTarget v t :=
    (if_pos hstorable).trans (if_neg (Bool.eq_false_iff.mp hidle))
  rw [step_store ht h, hstore]

/-- The low `k` bits of a word, read back at full width, are the word under the mask of those bits. -/
theorem setWidth_setWidth_eq_and (v : Word) {k : Nat} (hk : k ≤ 32) :
    (v.setWidth k).setWidth 32 = v &&& BitVec.ofNat 32 (2 ^ k - 1) := by
  have hpow : 2 ^ k ≤ 2 ^ 32 := Nat.pow_le_pow_right (by decide) hk
  have hpos : 0 < 2 ^ k := Nat.two_pow_pos k
  refine BitVec.eq_of_toNat_eq ?_
  rw [BitVec.toNat_and, BitVec.toNat_ofNat, Nat.mod_eq_of_lt (b := 2 ^ 32) (by omega), Nat.and_two_pow_sub_one_eq_mod,
    BitVec.toNat_setWidth, BitVec.toNat_setWidth, Nat.mod_eq_of_lt]
  exact Nat.lt_of_lt_of_le (Nat.mod_lt _ hpos) hpow

/-- CTRL reads back as the two low bits of the word written (R18). -/
theorem ctrlWord_store (v : Word) (r : Regs) : (r.store v .ctrl).ctrlWord = v &&& 0x3#32 := by
  have hmode : (framingOf v == .mbap) = v.getLsbD 0 := by
    rw [framingOf]
    cases v.getLsbD 0 <;> rfl
  have hbits : BitVec.ofBool (v.getLsbD 1) ++ BitVec.ofBool (v.getLsbD 0) = v.setWidth 2 := by
    refine BitVec.eq_of_getLsbD_eq fun i hi => ?_
    have hcases : i = 0 ∨ i = 1 := by omega
    rcases hcases with rfl | rfl <;> simp only [BitVec.getLsbD_append, BitVec.getLsbD_setWidth] <;> simp
  have hmask := setWidth_setWidth_eq_and v (k := 2) (by decide)
  rw [← hbits] at hmask
  simp only [Regs.ctrlWord, Regs.store, hmode]
  exact hmask

/-- An RW register is stored to at its offset and reads back as its field's bits of the word written (R16, R46). -/
theorem read_store_same {off : Off} {m : Word} (h : (off, m) ∈ rwFields) :
    ∃ x : Reg, off = x.offset ∧ x.access = .rw ∧ ∀ (v : Word) (r : Regs), (r.store v x).read x = v &&& m := by
  have hbyte (v : Word) := setWidth_setWidth_eq_and v (k := 8) (by decide)
  have hhalf (v : Word) := setWidth_setWidth_eq_and v (k := 16) (by decide)
  simp only [rwFields, List.mem_cons, Prod.mk.injEq, List.not_mem_nil, or_false] at h
  rcases h with h | h | h | h | h | h | h | h | h <;> obtain ⟨rfl, rfl⟩ := h
  · exact ⟨.ctrl, rfl, rfl, ctrlWord_store⟩
  · exact ⟨.crc, rfl, rfl, fun v _ => hhalf v⟩
  · exact ⟨.unit, rfl, rfl, fun v _ => hbyte v⟩
  · exact ⟨.func, rfl, rfl, fun v _ => hbyte v⟩
  · exact ⟨.addr, rfl, rfl, fun v _ => hhalf v⟩
  · exact ⟨.count, rfl, rfl, fun v _ => hhalf v⟩
  · exact ⟨.txn, rfl, rfl, fun v _ => hhalf v⟩
  · exact ⟨.len, rfl, rfl, fun v _ => hhalf v⟩
  · exact ⟨.nwords, rfl, rfl, fun v _ => hbyte v⟩

/-- A store to a register changes what no other register reads as. -/
theorem read_store_other {x y : Reg} (h : y ≠ x) (v : Word) (r : Regs) : (r.store v x).read y = r.read y := by
  cases x
  case id | status | cmd | errcode | crcData | rspUnit | rspFunc | rspExc | rspAddr | rspQty | rspTxn => rfl
  all_goals
    cases y <;> simp only [ne_eq, not_true_eq_false] at h <;> rfl

/-- Settles O23: the store changes the one register, by `read_store_same` and `read_store_other`. -/
theorem registerWriteThenRead : Obligations.RegisterWriteThenRead := by
  intro s off m v rest hidle hrw
  obtain ⟨x, rfl, haccess, hread⟩ := read_store_same hrw
  have htarget := targetOf_offset x
  have hstep := step_store_idle hidle htarget (by simp [Target.storable, haccess])
    (not_operation_of_access (.inl haccess)) v rest
  refine ⟨_, hstep, ?_, fun off' w hne hrow => ?_, rfl, rfl, rfl, rfl, rfl⟩
  · rw [step_read htarget, ← hread v s.regs]
    rfl
  · obtain ⟨y, rfl, rfl⟩ := mem_registerReads.mp hrow
    exact mem_registerReads.mpr ⟨y, rfl, read_store_other (ne_of_apply_ne Reg.offset hne) v s.regs⟩

/-- What BUF reads as after one entry is written. -/
theorem bufByte_writeBuf_single (s : State) (i : Nat) (b : Byte) (k : Nat) :
    (s.writeBuf i [b]).bufByte k = if k = i then b else s.bufByte k := by
  rw [bufByte_writeBuf]
  by_cases h : k = i
  · simp [h]
  · rw [dif_neg (by simp only [List.length_singleton]; omega), if_neg h]

/-- What WORDS reads as after one entry is written. -/
theorem wordAt_writeWords_single (s : State) (j : Nat) (w : Half) (k : Nat) :
    (s.writeWords j [w]).wordAt k = if k = j then w else s.wordAt k := by
  rw [wordAt_writeWords]
  by_cases h : k = j
  · simp [h]
  · rw [dif_neg (by simp only [List.length_singleton]; omega), if_neg h]

/-- Settles O24: the offset names the entry, and the store writes that entry alone. -/
theorem bufferWriteChangesOneEntry : Obligations.BufferWriteChangesOneEntry := by
  refine fun s v rest hidle => ⟨fun i hi => ?_, fun j hj => ?_⟩
  · have hoff := toNat_entryOffset (n := 0x1000 + 4 * i) (by omega)
    exact ⟨_, step_store_idle hidle (targetOf_bufOffset hi hoff) rfl (not_operation_of_buffer (by omega)) v rest,
      bufByte_writeBuf_single _ i _, fun _ => rfl, rfl, rfl, rfl, rfl, rfl⟩
  · have hoff := toNat_entryOffset (n := 0x2000 + 4 * j) (by omega)
    exact ⟨_, step_store_idle hidle (targetOf_wordsOffset hj hoff) rfl (not_operation_of_buffer (by omega)) v rest,
      wordAt_writeWords_single _ j _, fun _ => rfl, rfl, rfl, rfl, rfl, rfl⟩

end Sys2Proof.Machine
end

section
/-! What one host access can do, and what a step of the whole machine keeps (20_memory.md R46, 40_command_control.md R76,
60_exceptions.md R111 to R113). -/
namespace Sys2Proof.Machine

/-! ## The effect of an access -/

/-- What an access that is not the SOFT_RESET write may make of the state `s` that has answered it (R44 to R46, R74 to
R78). -/
inductive HostEffect (a : Access) (s : State) : State → Prop
  /-- An error, a read, or a write to a read-only register. -/
  | unchanged : HostEffect a s s
  /-- A write that STATUS.BUSY = 1 drops. -/
  | dropped : s.regs.busy = true → HostEffect a s s.dropWrite
  /-- A STATUS write. -/
  | cleared (v : Word) : HostEffect a s { s with regs := s.regs.clearStatus v }
  /-- A CRC_DATA write to an idle block. -/
  | crcSet (c : Half) : s.regs.busy = false → HostEffect a s (s.setCrc c)
  /-- A CMD write to an idle block. -/
  | accepted (w : Word) : s.regs.busy = false → w ≠ 0x000000FF#32 → HostEffect a s (s.accept w)
  /-- A store to an idle block. -/
  | stored (off : Off) (v : Word) (t : Target) : s.regs.busy = false → a = .memWrite off v → targetOf off = some t →
      HostEffect a s (s.storeTarget v t)

theorem hostEffect_crcData (a : Access) (v : Word) (s : State) :
    ∃ t, execCrcData v s = .next t ∧ HostEffect a s t := by
  cases hbusy : s.regs.busy with
  | false => exact ⟨_, exec_crcData_idle hbusy v, .crcSet _ hbusy⟩
  | true => exact ⟨_, exec_crcData_busy hbusy v, .dropped hbusy⟩

theorem hostEffect_issue (a : Access) {v : Word} (hv : v ≠ 0x000000FF#32) (s : State) : HostEffect a s (s.issue v) := by
  unfold State.issue
  split
  next hbusy => exact .dropped hbusy
  next hidle => exact .accepted v (Bool.eq_false_iff.mpr hidle) hv

theorem hostEffect_busStore {a : Access} {off : Off} {v : Word} {t : Target} (ha : a = .memWrite off v)
    (ht : targetOf off = some t) (s : State) : HostEffect a s (s.busStore t v) := by
  unfold State.busStore
  split
  next =>
    split
    next hbusy => exact .dropped hbusy
    next hidle => exact .stored off v t (Bool.eq_false_iff.mpr hidle) ha ht
  next => exact .unchanged

/-- Every access that is not the SOFT_RESET write is answered and has one of these effects. -/
theorem hostTurn_effect {a : Access} (ha : a ≠ .memWrite cmdOffset 0x000000FF#32) (s : State) :
    ∃ r t, hostTurn a s = .next t ∧ HostEffect a (s.respond r) t := by
  rcases hostTurn_cases a s with h | ⟨x, -, h⟩ | ⟨v, hreset, rfl, -⟩ | ⟨v, -, h⟩ | ⟨v, -, h⟩ | ⟨v, -, hv, h⟩ |
    ⟨v, x, hwrite, hx, -, -, -, h⟩
  · exact ⟨_, _, h, .unchanged⟩
  · exact ⟨_, _, h, .unchanged⟩
  · exact absurd hreset ha
  · obtain ⟨t, ht, heffect⟩ := hostEffect_crcData a v (s.respond (.written .okay))
    exact ⟨_, t, h.trans ht, heffect⟩
  · exact ⟨_, _, h, .cleared v⟩
  · exact ⟨_, _, h, hostEffect_issue a hv _⟩
  · exact ⟨_, _, h, hostEffect_busStore hwrite hx _⟩

/-- The SOFT_RESET write resets the block (R80). -/
theorem hostTurn_softReset (s : State) :
    hostTurn (.memWrite cmdOffset 0x000000FF#32) s = .next (s.respond (.written .okay)).softReset :=
  step_softReset s s.agenda

theorem store_irqEn_of_ne {x : Reg} (h : x ≠ .ctrl) (v : Word) (r : Regs) : (r.store v x).irqEn = r.irqEn := by
  cases x
  case ctrl => exact absurd rfl h
  all_goals rfl

section
variable {a : Access} {s t : State}

theorem HostEffect.keepsTurns (h : HostEffect a s t) : t.agenda = s.agenda ∧ t.resetCount = s.resetCount := by
  cases h with
  | stored off v x hidle ha hx =>
    obtain ⟨-, hcount, -, hagenda, -⟩ := storeTarget_keeps v s x
    exact ⟨hagenda, hcount⟩
  | unchanged | dropped | cleared | crcSet | accepted => exact ⟨rfl, rfl⟩

/-- While busy only DONE, ERR and WERR may change (R76). -/
theorem HostEffect.keepsOperands (h : HostEffect a s t) (hbusy : s.regs.busy = true) :
    t.pending = s.pending ∧ t.mem = s.mem ∧
      t.regs = { s.regs with done := t.regs.done, err := t.regs.err, werr := t.regs.werr } := by
  cases h with
  | unchanged | dropped | cleared => exact ⟨rfl, rfl, rfl⟩
  | crcSet _ hidle | accepted _ hidle | stored _ _ _ hidle => rw [hbusy] at hidle; cases hidle

/-- The bus writes no result register (R16). -/
theorem HostEffect.keepsResults (h : HostEffect a s t) :
    t.regs.errcode = s.regs.errcode ∧ t.regs.rspUnit = s.regs.rspUnit ∧ t.regs.rspFunc = s.regs.rspFunc ∧
      t.regs.rspExc = s.regs.rspExc ∧ t.regs.rspAddr = s.regs.rspAddr ∧ t.regs.rspQty = s.regs.rspQty ∧
      t.regs.rspTxn = s.regs.rspTxn := by
  cases h with
  | stored off v x hidle ha hx =>
    cases x with
    | reg x =>
      obtain ⟨-, -, -, -, hresults⟩ := store_keeps v s.regs x
      exact hresults
    | byte | word => exact ⟨rfl, rfl, rfl, rfl, rfl, rfl, rfl⟩
  | unchanged | dropped | cleared | crcSet | accepted => exact ⟨rfl, rfl, rfl, rfl, rfl, rfl, rfl⟩

/-- A store leaves IRQ_EN as it is, or is made to CTRL and copies bit 1 (R18). -/
theorem storeTarget_irqEn {off : Off} {x : Target} (hx : targetOf off = some x) (v : Word) (s : State) :
    (s.storeTarget v x).regs.irqEn = s.regs.irqEn ∨
      (off = 0x004#14 ∧ (s.storeTarget v x).regs.irqEn = v.getLsbD 1) := by
  cases x with
  | reg x =>
    by_cases hctrl : x = .ctrl
    · subst hctrl
      exact .inr ⟨(offset_of_targetOf hx).symm, rfl⟩
    · exact .inl (store_irqEn_of_ne hctrl v s.regs)
  | byte | word => exact .inl rfl

/-- An access raises `irq` only by a store to CTRL that sets IRQ_EN while DONE is set. -/
theorem HostEffect.irq_rises (h : HostEffect a s t) (hlow : s.irq = false) (hhigh : t.irq = true) :
    s.regs.done = true ∧ ∃ v, a = .memWrite 0x004#14 v ∧ v.getLsbD 1 = true := by
  cases h with
  | unchanged | dropped | crcSet => exact absurd hhigh (Bool.eq_false_iff.mp hlow)
  | cleared v =>
    obtain ⟨hen, hdone⟩ := Bool.and_eq_true_iff.mp hhigh
    have hdone := (Bool.and_eq_true_iff.mp hdone).1
    exact absurd (Bool.and_eq_true_iff.mpr ⟨hen, hdone⟩) (Bool.eq_false_iff.mp hlow)
  | accepted => cases (Bool.and_eq_true_iff.mp hhigh).2
  | stored off v x hidle ha hx =>
    obtain ⟨hen, hdone⟩ := Bool.and_eq_true_iff.mp hhigh
    obtain ⟨-, -, -, -, -, hkeep, -⟩ := storeTarget_keeps v s x
    rw [hkeep] at hdone
    rcases storeTarget_irqEn hx v s with hsame | ⟨rfl, hbit⟩
    · exact absurd (Bool.and_eq_true_iff.mpr ⟨hsame.symm.trans hen, hdone⟩) (Bool.eq_false_iff.mp hlow)
    · exact ⟨hdone, v, ha, hbit.symm.trans hen⟩

end

/-- Settles O14: PENDING, the buffers and the operand registers are kept by `HostEffect.keepsOperands`. -/
theorem operandsHoldWhileBusy : Obligations.OperandsHoldWhileBusy := by
  intro s a rest hbusy ha
  obtain ⟨r, t, hstep, heffect⟩ := hostTurn_effect ha { s with agenda := rest }
  obtain ⟨hpending, hmem, hregs⟩ := heffect.keepsOperands hbusy
  obtain ⟨hagenda, hcount⟩ := heffect.keepsTurns
  exact ⟨t, hstep, hpending, hmem, hcount, hagenda, hregs⟩

/-- Settles O25: no effect of an access writes a result register. -/
theorem busNeverWritesResults : Obligations.BusNeverWritesResults := by
  intro s a rest ha
  obtain ⟨r, t, hstep, heffect⟩ := hostTurn_effect ha { s with agenda := rest }
  exact ⟨t, hstep, heffect.keepsResults⟩

/-! ## The whole machine -/

theorem facing_eq_self {s : State} {a : Access} {rest : List Turn} (h : s.agenda = .host a :: rest) :
    s.facing a rest = s := by
  rw [State.facing, ← h]

/-- Settles O18: any other step is a host access that is not the SOFT_RESET write, which keeps BUSY by O14. -/
theorem onlyTheseEndBusy : Obligations.OnlyTheseEndBusy := by
  intro s t hstep hbusy hidle
  rcases hagenda : s.agenda with _ | ⟨a | _ | _, rest⟩
  · exact .inl rfl
  · by_cases ha : a = .memWrite 0x00C#14 0x000000FF#32
    · subst ha
      exact .inr ⟨rest, .inr (.inr rfl)⟩
    · obtain ⟨t', hstep', -, -, -, -, hregs⟩ := operandsHoldWhileBusy s a rest hbusy ha
      rw [facing_eq_self hagenda, hstep] at hstep'
      cases hstep'
      rw [hregs] at hidle
      exact absurd hbusy (Bool.eq_false_iff.mp hidle)
  · exact .inr ⟨rest, .inl rfl⟩
  · exact .inr ⟨rest, .inr (.inl rfl)⟩

/-- The engine's turn raises `irq` only where it was enabled, so that DONE is set by the completion. -/
theorem engineTurn_irq_rises {s t : State} (h : engineTurn s = .next t) (hlow : s.irq = false) (hhigh : t.irq = true) :
    s.regs.busy = true ∧ t.regs.done = true := by
  refine ⟨?_, (Bool.and_eq_true_iff.mp hhigh).2⟩
  cases hbusy : s.regs.busy with
  | true => rfl
  | false =>
    rw [engineTurn_idle hbusy] at h
    cases h
    exact absurd hhigh (Bool.eq_false_iff.mp hlow)

/-- Settles O19: the engine's turn is `engineTurn_irq_rises`, a reset leaves DONE clear, and any other access is
`HostEffect.irq_rises`. -/
theorem onlyTheseRaiseIrq : Obligations.OnlyTheseRaiseIrq := by
  intro s t hstep hlow hhigh
  rcases hagenda : s.agenda with _ | ⟨a | _ | _, rest⟩
  · rw [step_nil hagenda] at hstep
    obtain ⟨hbusy, hdone⟩ := engineTurn_irq_rises hstep hlow hhigh
    exact .inl ⟨hbusy, hdone, .inl rfl⟩
  · rw [← facing_eq_self hagenda, step_facing] at hstep
    by_cases ha : a = .memWrite cmdOffset 0x000000FF#32
    · rw [ha, hostTurn_softReset] at hstep
      cases hstep
      cases hhigh
    · obtain ⟨r, t', hstep', heffect⟩ := hostTurn_effect ha { s with agenda := rest }
      rw [hstep] at hstep'
      cases hstep'
      obtain ⟨hdone, v, rfl, hv⟩ := heffect.irq_rises hlow hhigh
      exact .inr ⟨hdone, v, rest, rfl, hv⟩
  · have hengine : engineTurn { s with agenda := rest } = .next t := by
      simpa only [step, takeTurn, hagenda] using hstep
    obtain ⟨hbusy, hdone⟩ := engineTurn_irq_rises hengine hlow hhigh
    exact .inl ⟨hbusy, hdone, .inr ⟨rest, rfl⟩⟩
  · simp only [step, takeTurn, hagenda] at hstep
    cases hstep
    cases hhigh

/-! ## The invariant -/

/-- Settles O50: the reset state has the registers, the latch and the buffers that hardware reset leaves. -/
theorem resetMeetsInvariant : Obligations.ResetMeetsInvariant :=
  Inv.of_outside (hardReset_inv State.reset) rfl rfl rfl

theorem setCrc_inv {s : State} (h : s.Inv) (c : Half) : (s.setCrc c).Inv where
  busy_pending := h.busy_pending
  busy_clear := h.busy_clear
  pending_command := h.pending_command
  errcode_known := h.errcode_known
  err_code := h.err_code
  mem_wf := h.mem_wf

theorem HostEffect.keepsInv {a : Access} {s t : State} (heffect : HostEffect a s t) (h : s.Inv) : t.Inv := by
  cases heffect with
  | unchanged => exact h
  | dropped => exact dropWrite_inv h
  | cleared v => exact clearStatus_inv h v
  | crcSet c => exact setCrc_inv h c
  | accepted w _ hw => exact accept_inv h hw
  | stored off v x _ _ hx => exact storeTarget_inv h hx v

theorem hostTurn_keepsInv {s : State} (h : s.Inv) (a : Access) : ∃ t, hostTurn a s = .next t ∧ t.Inv := by
  by_cases ha : a = .memWrite cmdOffset 0x000000FF#32
  · subst ha
    exact ⟨_, hostTurn_softReset s, softReset_inv h.mem_wf⟩
  · obtain ⟨r, t, hstep, heffect⟩ := hostTurn_effect ha s
    exact ⟨t, hstep, heffect.keepsInv (Inv.of_outside h rfl rfl rfl)⟩

/-- The engine's turn never faults: BUSY = 1 means that a command other than SOFT_RESET is latched, and it completes. -/
theorem engineTurn_keepsInv {s : State} (h : s.Inv) : ∃ t, engineTurn s = .next t ∧ t.Inv := by
  cases hbusy : s.regs.busy with
  | false => exact ⟨s, engineTurn_idle hbusy, h⟩
  | true =>
    obtain ⟨w, hpending⟩ := Option.isSome_iff_exists.mp (h.busy_pending.symm.trans hbusy)
    have hw : w ≠ 0x000000FF#32 := fun hw => h.pending_command (hw ▸ hpending)
    have hlatched : runsAtOnce (decodeCommand w) = false :=
      Bool.eq_false_iff.mpr (mt (runsAtOnce_decodeCommand w).mp hw)
    obtain ⟨code, s', hexec, hcommitted⟩ := exec_command hlatched s
    exact ⟨_, (engineTurn_busy hbusy hpending).trans hexec, complete_inv h.mem_wf hcommitted code⟩

/-- Settles O51: each kind of turn answers a state that meets the invariant. -/
theorem stepKeepsInvariant : Obligations.StepKeepsInvariant := by
  intro s h
  have hrest (rest : List Turn) : State.Inv { s with agenda := rest } := Inv.of_outside h rfl rfl rfl
  unfold step takeTurn
  split
  next => exact engineTurn_keepsInv h
  next a rest _ => exact hostTurn_keepsInv (hrest rest) a
  next rest _ => exact engineTurn_keepsInv (hrest rest)
  next rest _ => exact ⟨_, rfl, hardReset_inv _⟩

end Sys2Proof.Machine
end

section
/-! What every command's completion leaves, and what no command reads (40_command_control.md R76, R77, 10_state.md R41). -/
namespace Sys2Proof.Machine

/-! ## What a completion leaves -/

/-- An operation that is none of the three that run at their bus write is a command (R74). -/
theorem runsAtOnce_eq_false {i : Instr} (h : ∀ v, i ≠ .softReset ∧ i ≠ .crcData v ∧ i ≠ .statusClear v) :
    runsAtOnce i = false := by
  cases i with
  | softReset => exact absurd rfl (h 0#32).1
  | crcData v => exact absurd rfl (h v).2.1
  | statusClear v => exact absurd rfl (h v).2.2
  | nop | crcInit | crcBuf | crcCheck | crcAppend | encRead | encWrite | decode | illegal => rfl

/-- ERR is set exactly when the completion's code is nonzero (R77). -/
theorem err_complete_iff (s : State) (code : ResultCode) :
    (s.complete code).regs.err = true ↔ (s.complete code).regs.errcode ≠ 0#8 := by
  rw [complete_regs, Regs.finish, err_toByte, bne_iff_ne]

/-- The configuration and operand registers that no command writes (30_encoding.md R61). -/
theorem Committed.keepsOperands {s s' : State} (h : Committed s s') :
    s'.regs.werr = s.regs.werr ∧ s'.regs.mode = s.regs.mode ∧ s'.regs.irqEn = s.regs.irqEn ∧
      s'.regs.unit = s.regs.unit ∧ s'.regs.func = s.regs.func ∧ s'.regs.addr = s.regs.addr ∧
      s'.regs.count = s.regs.count ∧ s'.regs.txn = s.regs.txn := by
  refine ⟨?_, ?_, ?_, ?_, ?_, ?_, ?_, ?_⟩ <;> rw [h.regs]

/-- Settles O15: a command's body commits nothing that `Committed` does not list, and `State.complete` records the code. -/
theorem completionRecordsResult : Obligations.CompletionRecordsResult := by
  intro i s hi
  obtain ⟨code, s', hexec, hcommitted⟩ := exec_command (runsAtOnce_eq_false hi) s
  obtain ⟨hwerr, hmode, hirqEn, hrest⟩ := hcommitted.keepsOperands
  obtain ⟨hunit, hfunc, haddr, hcount, htxn⟩ := hrest
  have hirq : (s'.complete code).irq = s.regs.irqEn := (Bool.and_true _).trans hirqEn
  exact ⟨s'.complete code, hexec, rfl, rfl, rfl, err_complete_iff s' code, toByte_le code, hirq, hwerr, hmode, hirqEn,
    hunit, hfunc, haddr, hcount, htxn, hcommitted.resetCount, hcommitted.response, hcommitted.agenda⟩

/-! ## What no command reads -/

/-- The fields of a state that no command reads: DONE, ERR, WERR and ERRCODE (R41), and the host's latest answer. -/
structure Unread where
  done     : Bool
  err      : Bool
  werr     : Bool
  errcode  : Byte
  response : Option BusResponse

/-- The state with other values in the fields that no command reads. -/
def State.setUnread (x : Unread) (s : State) : State :=
  { s with
    regs := { s.regs with done := x.done, err := x.err, werr := x.werr, errcode := x.errcode }
    response := x.response }

/-- The state with another WERR and another answer: what a completion keeps of the unread fields. -/
def State.setKept (x : Unread) (s : State) : State :=
  { s with regs := { s.regs with werr := x.werr }, response := x.response }

/-- From states that differ only in the unread fields, `i` answers states that differ only in WERR and the host's answer. -/
def IgnoresUnread (i : Instr) : Prop :=
  ∀ (s : State) (x : Unread), ∃ t, exec i s = .next t ∧ exec i (s.setUnread x) = .next (t.setKept x)

theorem nop_ignoresUnread : IgnoresUnread .nop := fun _ _ => ⟨_, rfl, rfl⟩

theorem illegal_ignoresUnread (w : Word) : IgnoresUnread (.illegal w) := fun _ _ => ⟨_, rfl, rfl⟩

theorem crcInit_ignoresUnread : IgnoresUnread .crcInit := fun _ _ => ⟨_, rfl, rfl⟩

theorem crcBuf_ignoresUnread : IgnoresUnread .crcBuf := by
  intro s x
  rcases Nat.lt_or_ge 260 s.regs.len.toNat with hlong | hfits
  · exact ⟨_, exec_crcBuf_tooLong hlong, exec_crcBuf_tooLong (s := s.setUnread x) hlong⟩
  · exact ⟨_, exec_crcBuf_fits hfits, exec_crcBuf_fits (s := s.setUnread x) hfits⟩

theorem crcCheck_ignoresUnread : IgnoresUnread .crcCheck := by
  intro s x
  rcases Nat.lt_or_ge 260 s.regs.len.toNat with hlong | hfits
  · exact ⟨_, exec_crcCheck_tooLong hlong, exec_crcCheck_tooLong (s := s.setUnread x) hlong⟩
  rcases Nat.lt_or_ge s.regs.len.toNat 2 with hshort | hbody
  · exact ⟨_, exec_crcCheck_tooShort hshort, exec_crcCheck_tooShort (s := s.setUnread x) hshort⟩
  · obtain ⟨l, hlen⟩ := Nat.exists_eq_add_of_le' hbody
    rw [hlen] at hfits
    exact ⟨_, exec_crcCheck_fits hlen hfits, exec_crcCheck_fits (s := s.setUnread x) hlen hfits⟩

theorem crcAppend_ignoresUnread : IgnoresUnread .crcAppend := by
  intro s x
  rcases Nat.lt_or_ge 258 s.regs.len.toNat with hlong | hfits
  · exact ⟨_, exec_crcAppend_tooLong hlong, exec_crcAppend_tooLong (s := s.setUnread x) hlong⟩
  · exact ⟨_, exec_crcAppend_fits rfl hfits rfl, exec_crcAppend_fits (s := s.setUnread x) rfl hfits rfl⟩

theorem setUnread_emit (s : State) (x : Unread) (p : List Byte) : (s.setUnread x).emit p = (s.emit p).setUnread x := by
  cases hmode : s.regs.mode with
  | rtu => rw [emit_rtu hmode, emit_rtu (s := s.setUnread x) hmode]; rfl
  | mbap => rw [emit_mbap hmode, emit_mbap (s := s.setUnread x) hmode]; rfl

/-- An encoder's success, in states that differ only in the unread fields. -/
theorem exists_next_of_emit {i : Instr} {s : State} {x : Unread} {p : List Byte}
    (h : exec i s = finished (.ok, s.emit p))
    (hx : exec i (s.setUnread x) = finished (.ok, (s.setUnread x).emit p)) :
    ∃ t, exec i s = .next t ∧ exec i (s.setUnread x) = .next (t.setKept x) :=
  ⟨(s.emit p).complete .ok, h, by rw [hx, setUnread_emit]; rfl⟩

theorem encRead_ignoresUnread : IgnoresUnread .encRead := by
  intro s x
  by_cases hout : s.regs.count.toNat < 1 ∨ 125 < s.regs.count.toNat
  · exact ⟨_, exec_encRead_outOfRange hout, exec_encRead_outOfRange (s := s.setUnread x) hout⟩
  · obtain ⟨hmin, hmax⟩ := not_or.mp hout
    rw [Nat.not_lt] at hmin hmax
    exact exists_next_of_emit (exec_encRead_inRange hmin hmax) (exec_encRead_inRange (s := s.setUnread x) hmin hmax)

theorem encWrite_ignoresUnread : IgnoresUnread .encWrite := by
  intro s x
  by_cases hout : s.regs.nwords.toNat < 1 ∨ 123 < s.regs.nwords.toNat
  · exact ⟨_, exec_encWrite_outOfRange hout, exec_encWrite_outOfRange (s := s.setUnread x) hout⟩
  · obtain ⟨hmin, hmax⟩ := not_or.mp hout
    rw [Nat.not_lt] at hmin hmax
    exact exists_next_of_emit (exec_encWrite_inRange hmin hmax) (exec_encWrite_inRange (s := s.setUnread x) hmin hmax)

/-- The unread fields are none of those that the stages of DECODE compare with the frame. -/
theorem setUnread_decodeBody (s : State) (x : Unread) (y : Framed) :
    (s.setUnread x).decodeBody y = ((s.decodeBody y).1, (s.decodeBody y).2.setUnread x) := by
  have hbyte (i : Nat) : (s.setUnread x).bufByte i = s.bufByte i := rfl
  have hfunc : (s.setUnread x).regs.func = s.regs.func := rfl
  have hwrite : (s.setUnread x).writeLayout y.o y.b = s.writeLayout y.o y.b := rfl
  have hread : (s.setUnread x).readLayout y.o y.b = s.readLayout y.o y.b := rfl
  simp only [State.decodeBody, hbyte, hfunc, hwrite, hread]
  split
  · split
    · rfl
    · split <;> rfl
  · split
    · rfl
    · split <;> rfl

theorem setUnread_runDecode (s : State) (x : Unread) :
    runDecode (s.setUnread x) = ((runDecode s).1, (runDecode s).2.setUnread x) := by
  have hframed : (s.setUnread x).framed = s.framed := rfl
  simp only [runDecode, hframed]
  cases s.framed with
  | error code => rfl
  | ok y => exact setUnread_decodeBody s x y

theorem decode_ignoresUnread : IgnoresUnread .decode := fun s x =>
  ⟨_, rfl, congrArg finished (setUnread_runDecode s x)⟩

theorem command_ignoresUnread {i : Instr} (hi : runsAtOnce i = false) : IgnoresUnread i := by
  cases i with
  | nop => exact nop_ignoresUnread
  | crcInit => exact crcInit_ignoresUnread
  | crcBuf => exact crcBuf_ignoresUnread
  | crcCheck => exact crcCheck_ignoresUnread
  | crcAppend => exact crcAppend_ignoresUnread
  | encRead => exact encRead_ignoresUnread
  | encWrite => exact encWrite_ignoresUnread
  | decode => exact decode_ignoresUnread
  | illegal w => exact illegal_ignoresUnread w
  | softReset | crcData | statusClear => cases hi

/-- Settles O16: the two states differ only in unread fields, and a command keeps the host's answer. -/
theorem commandsReadNoFlag : Obligations.CommandsReadNoFlag := by
  intro i s d e w c hi
  have hcommand := runsAtOnce_eq_false hi
  obtain ⟨t, hexec, hflags⟩ := command_ignoresUnread hcommand s ⟨d, e, w, c, s.response⟩
  obtain ⟨code, s', hexec', hcommitted⟩ := exec_command hcommand s
  have hresponse : t.response = s.response := by
    rw [hexec] at hexec'
    cases hexec'
    exact hcommitted.response
  have hkept : t.setKept ⟨d, e, w, c, s.response⟩ = { t with regs := { t.regs with werr := w } } := by
    rw [State.setKept, ← hresponse]
  exact ⟨t, hexec, hflags.trans (congrArg _ hkept)⟩

/-- Settles O17: the dropped store sets WERR and answers the host, and the completion that follows reads neither. -/
theorem droppedStoreDoesNotDisturbCommand : Obligations.DroppedStoreDoesNotDisturbCommand := by
  intro s w off v rest hbusy hpending hw hoff
  have hlatched : runsAtOnce (decodeCommand w) = false :=
    Bool.eq_false_iff.mpr (mt (runsAtOnce_decodeCommand w).mp hw)
  let x : Unread := ⟨s.regs.done, s.regs.err, true, s.regs.errcode, some (.written .okay)⟩
  obtain ⟨t, hexec, hdropped⟩ := command_ignoresUnread hlatched { s with agenda := rest } x
  refine ⟨t, ?_, ?_⟩
  · rw [step_engine, engineTurn_busy (s := { s with agenda := rest }) hbusy hpending, hexec]
  · have hcompletion : step (s.answered (.written .okay) (.engine :: rest)).dropWrite = .next (t.setKept x) :=
      (engineTurn_busy (s := State.setUnread x { s with agenda := rest }) hbusy hpending).trans hdropped
    rw [run_succ (step_store_busy hbusy hoff v (.engine :: rest)), run_succ hcompletion, run_zero]
    rfl

end Sys2Proof.Machine
end

section
/-! The CRC function and CRC_APPEND (41_crc.md R85 to R87, R93): the residue of a frame that carries its CRC is 0, and the
CRC tells two sequences apart that differ in one byte. -/
namespace Sys2Proof.Machine

/-! ## The residue -/

/-- Shifting out zero bits only shifts: the polynomial never comes in. -/
theorem repeat_crcShift_of_low_zero (c : Half) : ∀ n, (∀ i < n, c.getLsbD i = false) →
    Nat.repeat crcShift n c = c >>> n
  | 0, _ => BitVec.ushiftRight_zero c |>.symm
  | n + 1, hzero => by
    have hlow : (c >>> n).getLsbD 0 = false := by
      rw [BitVec.getLsbD_ushiftRight]
      exact hzero n (Nat.lt_succ_self n)
    calc Nat.repeat crcShift (n + 1) c
        = crcShift (Nat.repeat crcShift n c) := rfl
      _ = crcShift (c >>> n) := by
          rw [repeat_crcShift_of_low_zero c n fun i hi => hzero i (Nat.lt_succ_of_lt hi)]
      _ = c >>> (n + 1) := by rw [crcShift, hlow, if_neg Bool.false_ne_true, BitVec.shiftRight_add]

/-- Taking in the low byte of the accumulator leaves the high one. -/
theorem crcUpdate_lo8 (c : Half) : crcUpdate c (lo8 c) = (hi8 c).setWidth 16 := by
  have hzero : ∀ i < 8, (c ^^^ (lo8 c).setWidth 16).getLsbD i = false := by
    intro i hi
    have hi16 : i < 16 := by omega
    simp [lo8, hi, hi16]
  rw [crcUpdate, repeat_crcShift_of_low_zero _ 8 hzero]
  refine BitVec.eq_of_getLsbD_eq fun i hi => ?_
  have hbound : c.getLsbD (8 + i) = true → i < 8 := fun h => by
    have := BitVec.lt_of_getLsbD h
    omega
  simpa [lo8, hi8, hi] using hbound

/-- A byte taken into the accumulator of that value leaves 0. -/
theorem crcUpdate_self (b : Byte) : crcUpdate (b.setWidth 16) b = 0#16 := by
  rw [crcUpdate, BitVec.xor_self]
  decide

/-- Settles O30: the frame's last two bytes are those of the CRC `c` of the bytes before them, low byte first, and taking
them into `c` shifts `c` out. -/
theorem crcResidueIsZero : Obligations.CrcResidueIsZero := by
  intro p
  calc crc16 (rtuFrame p)
      = crcUpdate (crcUpdate (crc16 p) (lo8 (crc16 p))) (hi8 (crc16 p)) := by
        rw [crc16, rtuFrame, List.foldl_append]
        rfl
    _ = crcUpdate ((hi8 (crc16 p)).setWidth 16) (hi8 (crc16 p)) := by rw [crcUpdate_lo8]
    _ = 0#16 := crcUpdate_self _

/-! ## One byte changed -/

/-- The bit that a shift drops comes back at the top, since the polynomial has bit 15 set. -/
theorem getLsbD_crcShift_top (c : Half) : (crcShift c).getLsbD 15 = c.getLsbD 0 := by
  unfold crcShift
  split
  next hlow => simp [Config.crcPoly, hlow]
  next hlow =>
    rw [Bool.eq_false_iff.mpr hlow, BitVec.getLsbD_ushiftRight]
    exact BitVec.getLsbD_of_ge c _ (by decide)

theorem crcShift_injective : Function.Injective crcShift := by
  intro c d h
  have hlow : c.getLsbD 0 = d.getLsbD 0 := by rw [← getLsbD_crcShift_top, h, getLsbD_crcShift_top]
  have hhigh : c >>> 1 = d >>> 1 := by
    unfold crcShift at h
    rw [hlow] at h
    split at h
    · exact (BitVec.xor_left_inj _).mp h
    · exact h
  refine BitVec.eq_of_getLsbD_eq fun i _ => ?_
  cases i with
  | zero => exact hlow
  | succ i => simpa [BitVec.getLsbD_ushiftRight, Nat.add_comm 1] using congrArg (BitVec.getLsbD · i) hhigh

theorem repeat_crcShift_injective : ∀ n, Function.Injective (Nat.repeat crcShift n)
  | 0 => Function.injective_id
  | n + 1 => crcShift_injective.comp (repeat_crcShift_injective n)

theorem crcUpdate_left_injective (b : Byte) : Function.Injective (crcUpdate · b) := fun _ _ h =>
  (BitVec.xor_left_inj _).mp (repeat_crcShift_injective 8 h)

theorem crcUpdate_right_injective (c : Half) : Function.Injective (crcUpdate c) := by
  intro a b h
  have hwide : a.setWidth 16 = b.setWidth 16 := (BitVec.xor_right_inj _).mp (repeat_crcShift_injective 8 h)
  simpa using congrArg (BitVec.setWidth 8) hwide

/-- The bytes that follow keep different accumulators apart. -/
theorem foldl_crcUpdate_injective (p : List Byte) : Function.Injective (p.foldl crcUpdate) := by
  induction p with
  | nil => exact Function.injective_id
  | cons b p ih => exact ih.comp (crcUpdate_left_injective b)

/-- Changing one byte changes the CRC. -/
theorem crc16_set_ne {p : List Byte} {k : Nat} (hk : k < p.length) {b : Byte} (hb : b ≠ p[k]) :
    crc16 (p.set k b) ≠ crc16 p := by
  intro h
  have hsplit : p.take k ++ p[k] :: p.drop (k + 1) = p := by
    rw [← List.drop_eq_getElem_cons hk, List.take_append_drop]
  have hset : p.set k b = p.take k ++ b :: p.drop (k + 1) := by
    rw [List.set_eq_take_append_cons_drop, if_pos hk]
  have hcrc (x : Byte) : crc16 (p.take k ++ x :: p.drop (k + 1)) =
      (p.drop (k + 1)).foldl crcUpdate (crcUpdate (crc16 (p.take k)) x) := List.foldl_append
  rw [hset, ← congrArg crc16 hsplit, hcrc, hcrc] at h
  exact hb (crcUpdate_right_injective _ (foldl_crcUpdate_injective _ h))

/-! ## CRC_APPEND -/

/-- Settles O34: the two bytes that CRC_APPEND writes are at LEN and LEN + 1. -/
theorem crcAppendResult : Obligations.CrcAppendResult := by
  refine fun s => ⟨fun hlong => failsWith_of_finished (exec_crcAppend_tooLong hlong), fun f ⟨hlen, hbytes⟩ hfits => ?_⟩
  have hexec := exec_crcAppend_fits hlen hfits (congrArg crc16 (bufSlice_eq rfl hbytes))
  refine ⟨_, hexec, complete_recorded ⟨rfl, rfl, rfl⟩ .ok, ?_, ?_, fun k hk => ?_, fun _ => rfl⟩
  all_goals
    simp only [complete_bufByte, setCrc_bufByte, setLen_bufByte, bufByte_writeBuf]
  · simp
  · simp
  · exact dif_neg (by simp only [List.length_cons, List.length_nil]; omega)

/-- BUF[0..LEN) holds what its slice lists. -/
theorem loaded_bufSlice (s : State) : Loaded s (s.bufSlice 0 s.regs.len.toNat) := by
  refine ⟨by simp, fun k hk => ?_⟩
  rw [bufSlice_getElem, Nat.zero_add]

/-- CRC_APPEND makes the RTU frame of the bytes that BUF holds. -/
theorem loaded_rtuFrame_of_append {s t : State} {f : List Byte} (hfits : f.length ≤ 258) (hloaded : Loaded s f)
    (hlen : t.regs.len = BitVec.ofNat 16 (f.length + 2))
    (hlo : t.bufByte f.length = lo8 (crc16 f)) (hhi : t.bufByte (f.length + 1) = hi8 (crc16 f))
    (hkeep : ∀ k, k < f.length ∨ f.length + 2 ≤ k → t.bufByte k = s.bufByte k) : Loaded t (rtuFrame f) := by
  refine ⟨?_, fun k hk => ?_⟩
  · rw [hlen, rtuFrame_length, BitVec.toNat_ofNat, Nat.mod_eq_of_lt (by omega)]
  · rw [rtuFrame_length] at hk
    have hcases : k < f.length ∨ k = f.length ∨ k = f.length + 1 := by omega
    rcases hcases with hbody | rfl | rfl
    · rw [hkeep k (.inl hbody), hloaded.2 k hbody]
      exact (List.getElem_append_left hbody).symm
    · simpa [rtuFrame] using hlo
    · simpa [rtuFrame] using hhi

/-- Settles O35: CRC_APPEND leaves the frame `f`, lo, hi of `crcCheckResult` with the stored CRC that CRC_CHECK computes. -/
theorem appendThenCheckSucceeds : Obligations.AppendThenCheckSucceeds := by
  intro s hfits
  let f := s.bufSlice 0 s.regs.len.toNat
  have hf : f.length ≤ 258 := by simpa [f] using hfits
  have hloaded : Loaded s f := loaded_bufSlice s
  obtain ⟨t, happend, ⟨ht, -, -⟩, hlo, hhi, hkeep, -⟩ := (crcAppendResult s).2 f hloaded hf
  have hframe : Loaded t (rtuFrame f) :=
    loaded_rtuFrame_of_append hf hloaded (by rw [ht]) hlo hhi hkeep
  obtain ⟨u, hcheck, ⟨hu, -, -⟩, -, -⟩ := (crcCheckResult t).2.2 f _ _ hframe (by omega)
  rw [if_pos (be16_hi8_lo8 _).symm] at hu
  refine ⟨t, u, happend, hcheck, ?_, ?_, ?_, ?_⟩ <;> rw [hu]
  · rfl
  · rw [ht]

end Sys2Proof.Machine
end

section
/-! The bound on the frames of the encoders (42_encode.md R98). -/
namespace Sys2Proof.Machine

/-- An encoder refuses its operands, or emits a body of at most 253 bytes: `7 + 2 * 123` (R96, R97). -/
theorem encoder_cases {i : Instr} (hi : i = .encRead ∨ i = .encWrite) (s : State) :
    exec i s = finished (.invalidArgument, s) ∨ ∃ p, p.length ≤ 253 ∧ exec i s = finished (.ok, s.emit p) := by
  rcases hi with rfl | rfl
  · by_cases hout : s.regs.count.toNat < 1 ∨ 125 < s.regs.count.toNat
    · exact .inl (exec_encRead_outOfRange hout)
    · obtain ⟨hmin, hmax⟩ := not_or.mp hout
      exact .inr ⟨_, by rw [readRequest_length]; decide,
        exec_encRead_inRange (Nat.not_lt.mp hmin) (Nat.not_lt.mp hmax)⟩
  · by_cases hout : s.regs.nwords.toNat < 1 ∨ 123 < s.regs.nwords.toNat
    · exact .inl (exec_encWrite_outOfRange hout)
    · obtain ⟨hmin, hmax⟩ := not_or.mp hout
      exact .inr ⟨_, by rw [writeRequest_length, wordsUpTo_length]; omega,
        exec_encWrite_inRange (Nat.not_lt.mp hmin) (Nat.not_lt.mp hmax)⟩

/-- Settles O39: a body of at most 253 bytes gives a frame of at most 259, or 255 in RTU mode. -/
theorem encodedFramesFitBuf : Obligations.EncodedFramesFitBuf := by
  intro i s hi
  rcases encoder_cases hi s with hexec | ⟨p, hp, hexec⟩
  · exact ⟨_, hexec, fun hok => absurd hok (by simp [Regs.finish, ResultCode.toByte])⟩
  · have hframe := frameOf_length_le s.regs.mode s.regs.txn p
    have hlen : ((s.emit p).complete .ok).regs.len.toNat = (frameOf s.regs.mode s.regs.txn p).length :=
      (emit_loaded (by omega)).1
    refine ⟨(s.emit p).complete .ok, hexec, fun _ => ⟨by omega, fun hmode => ?_, fun k hk => ?_⟩⟩
    · rw [hlen, hmode, frameOf, rtuFrame_length]
      omega
    · exact emit_bufByte_beyond (s := s) (p := p) (by omega)

end Sys2Proof.Machine
end

section
/-! DECODE on any buffer contents (43_decode.md R99 to R101, R106): the failures of the framing stage, what the command may
write, and that no accepted RTU frame survives a flipped bit. -/
namespace Sys2Proof.Machine

/-! ## The framing stage -/

/-- A failure of S1 or S2 ends DECODE with nothing written. -/
theorem failsWith_of_framed {s : State} {code : ResultCode} (h : s.framed = .error code) :
    FailsWith .decode s code.toByte :=
  failsWith_of_finished (by simp only [exec, execDecode, runDecode, h])

theorem framed_tooLong {s : State} (h : 260 < s.regs.len.toNat) : s.framed = .error .invalidArgument := if_pos h

theorem framed_eq_framedRtu {s : State} (hmode : s.regs.mode = .rtu) (hfits : s.regs.len.toNat ≤ 260) :
    s.framed = s.framedRtu s.regs.len.toNat := by
  simp only [State.framed, hmode]
  exact if_neg (Nat.not_lt.mpr hfits)

theorem framed_eq_framedMbap {s : State} (hmode : s.regs.mode = .mbap) (hfits : s.regs.len.toNat ≤ 260) :
    s.framed = s.framedMbap s.regs.len.toNat := by
  simp only [State.framed, hmode]
  exact if_neg (Nat.not_lt.mpr hfits)

/-- A wrong CRC fails S2 in RTU mode (R100). -/
theorem framed_checksumMismatch {s : State} (hmode : s.regs.mode = .rtu) (hfits : s.regs.len.toNat ≤ 260)
    (hbody : 4 ≤ s.regs.len.toNat)
    (hcrc : crc16 (s.bufSlice 0 (s.regs.len.toNat - 2)) ≠ s.storedCrc s.regs.len.toNat) :
    s.framed = .error .checksumMismatch := by
  rw [framed_eq_framedRtu hmode hfits, State.framedRtu, if_neg (Nat.not_lt.mpr hbody), if_pos hcrc]

/-- Settles O40: each failure is a branch of S1 or of S2 in RTU mode. -/
theorem decodeRtuFramingFailures : Obligations.DecodeRtuFramingFailures := by
  refine fun s => ⟨fun hlong => failsWith_of_framed (framed_tooLong hlong),
    fun hmode => ⟨fun hshort => ?_, fun p lo hi hloaded hbody hfits hcrc => ?_⟩⟩
  · refine failsWith_of_framed (code := .shortFrame) ?_
    rw [framed_eq_framedRtu hmode (by omega), State.framedRtu, if_pos hshort]
  · have hlen : s.regs.len.toNat = p.length + 2 := hloaded.1.trans (by simp)
    refine failsWith_of_framed (framed_checksumMismatch hmode (by omega) (by omega) ?_)
    rw [hlen, Nat.add_sub_cancel, hloaded.bufSlice_prefix, hloaded.storedCrc]
    exact hcrc

/-- Settles O41: each failure is a branch of S2 in MBAP mode, after the negations of those before it. -/
theorem decodeMbapFramingFailures : Obligations.DecodeMbapFramingFailures := by
  intro s l m hmode hl hfits hfield
  have hm : (s.field16 4).toNat = m := hfield.symm
  have hframed := framed_eq_framedMbap hmode (hl ▸ hfits)
  rw [← hl, State.framedMbap, hm] at hframed
  refine ⟨fun hshort => ?_, fun hlen (hproto : s.field16 2 ≠ 0#16) => ?_,
    fun hlen (hproto : s.field16 2 = 0#16) hbelow => ?_, fun hlen (hproto : s.field16 2 = 0#16) habove => ?_,
    fun hlen (hproto : s.field16 2 = 0#16) hexact (htxn : s.field16 0 ≠ s.regs.txn) => ?_⟩
  · rw [if_pos hshort] at hframed
    exact failsWith_of_framed hframed
  all_goals rw [if_neg (Nat.not_lt.mpr hlen)] at hframed
  · rw [if_pos hproto] at hframed
    exact failsWith_of_framed hframed
  all_goals rw [if_neg (not_not_intro hproto)] at hframed
  · rw [if_pos hbelow] at hframed
    exact failsWith_of_framed hframed
  · rw [if_neg (Nat.lt_asymm habove), if_pos habove] at hframed
    exact failsWith_of_framed hframed
  · rw [if_neg (Nat.not_lt.mpr (Nat.le_of_eq hexact.symm)),
      if_neg (Nat.not_lt.mpr (Nat.le_of_eq hexact)), if_pos htxn] at hframed
    exact failsWith_of_framed hframed

/-! ## What DECODE may write -/

theorem exec_decode_of_run {s s' : State} {code : ResultCode} (h : runDecode s = (code, s')) :
    exec .decode s = .next (s'.complete code) :=
  congrArg finished h

/-- The success commit writes WORDS below NWORDS alone. -/
theorem commitReply_wordAt_beyond (s : State) (u f : Byte) (t : Half) (y : Layout) {j : Nat} (hj : y.n ≤ j) :
    (s.commitReply u f t y).wordAt j = s.wordAt j := by
  have hlen : (s.replyWords y).length = y.n := by simp [State.replyWords]
  exact (wordAt_writeWords s 0 (s.replyWords y) j).trans (dif_neg (by omega))

/-- Settles O46: the four ends of `runDecode_cases`, a failure that writes nothing, the two that write the reply head, and
the success commit. -/
theorem decodeWritesOnlyItsOutputs : Obligations.DecodeWritesOnlyItsOutputs := by
  intro s
  rcases runDecode_cases s with ⟨code, hle, hok, -, -, h⟩ | ⟨u, f, e, h⟩ | ⟨u, f, h⟩ | ⟨u, f, t, y, hy, h⟩
  · exact ⟨_, exec_decode_of_run h, fun _ => rfl, rfl, rfl, rfl, hle, fun _ => ⟨fun _ => rfl, rfl, rfl, rfl, rfl⟩,
      fun hzero => absurd ((toByte_eq_zero code).mp hzero) hok, fun _ _ _ => complete_recorded ⟨rfl, rfl, rfl⟩ code⟩
  · have hcode : ResultCode.exceptionResponse.toByte.toNat ≤ 8 ∧ ResultCode.exceptionResponse.toByte ≠ 0#8 := by decide
    exact ⟨_, exec_decode_of_run h, fun _ => rfl, rfl, rfl, rfl, hcode.1, fun _ => ⟨fun _ => rfl, rfl, rfl, rfl, rfl⟩,
      fun hzero => absurd hzero hcode.2, fun _ hne => absurd rfl hne⟩
  · have hcode : ResultCode.unexpectedFunction.toByte.toNat ≤ 8 ∧ ResultCode.unexpectedFunction.toByte ≠ 0#8 := by decide
    exact ⟨_, exec_decode_of_run h, fun _ => rfl, rfl, rfl, rfl, hcode.1, fun _ => ⟨fun _ => rfl, rfl, rfl, rfl, rfl⟩,
      fun hzero => absurd hzero hcode.2, fun _ _ hne => absurd rfl hne⟩
  · have hn : (BitVec.ofNat 8 y.n).toNat = y.n := by
      rw [BitVec.toNat_ofNat, Nat.mod_eq_of_lt (by omega)]
    exact ⟨_, exec_decode_of_run h, fun _ => rfl, rfl, rfl, rfl, Nat.zero_le 8, fun hne => absurd rfl hne,
      fun _ j hj => commitReply_wordAt_beyond s u f t y (Nat.le_trans (Nat.le_of_eq hn.symm) hj), fun hne => absurd rfl hne⟩

/-! ## A flipped bit -/

/-- A frame that DECODE accepts passes S1 and S2. -/
theorem framed_of_decode_ok {s u : State} (hexec : exec .decode s = .next u) (hok : u.regs.errcode = 0#8) :
    ∃ x, s.framed = .ok x := by
  cases hframed : s.framed with
  | ok x => exact ⟨x, rfl⟩
  | error code =>
    obtain ⟨t, ht, ⟨hregs, -, -⟩, -⟩ := failsWith_of_framed hframed
    rw [hexec] at ht
    cases ht
    rw [hregs] at hok
    rw [(toByte_eq_zero code).mp hok] at hframed
    simpa using framed_error hframed

/-- Bytes of BUF whose last two are the CRC of the others are an RTU frame (R63). -/
theorem bufSlice_eq_rtuFrame {s : State} {l : Nat} (hl : 2 ≤ l)
    (hcrc : crc16 (s.bufSlice 0 (l - 2)) = s.storedCrc l) : s.bufSlice 0 l = rtuFrame (s.bufSlice 0 (l - 2)) := by
  obtain ⟨n, rfl⟩ := Nat.exists_eq_add_of_le' hl
  have hstored : s.storedCrc (n + 2) = be16 (s.bufByte (n + 1)) (s.bufByte n) := rfl
  rw [Nat.add_sub_cancel] at hcrc ⊢
  rw [rtuFrame, hcrc, hstored, lo8_be16, hi8_be16]
  simp [State.bufSlice, List.range'_concat]

/-- Flipping a bit changes a byte. -/
theorem xor_bit_ne (x : Byte) {b : Nat} (hb : b < 8) : x ^^^ (1#8 <<< b) ≠ x := by
  intro h
  have hbit := congrArg (BitVec.getLsbD · b) h
  simp [hb] at hbit

/-- Settles O47: with a good CRC in both, the two frames would both have the residue 0 (O30), but they differ in one byte. -/
theorem flippedBitFailsChecksum : Obligations.FlippedBitFailsChecksum := by
  intro s t u k b hmode hexec hok hk hb hregs hflip
  obtain ⟨x, hframed⟩ := framed_of_decode_ok hexec hok
  obtain ⟨hfits, ⟨-, hbody, -, hcrc⟩ | ⟨hmbap, -⟩⟩ := framed_ok hframed
  case inr => rw [hmode] at hmbap; cases hmbap
  refine failsWith_of_framed (framed_checksumMismatch (by rw [hregs]; exact hmode) (by rw [hregs]; exact hfits)
    (by rw [hregs]; exact hbody) ?_)
  rw [hregs]
  intro hcrc'
  generalize s.regs.len.toNat = l at hk hbody hcrc hcrc'
  have hresidue : crc16 (t.bufSlice 0 l) = crc16 (s.bufSlice 0 l) := by
    rw [bufSlice_eq_rtuFrame (by omega) hcrc, bufSlice_eq_rtuFrame (by omega) hcrc', crcResidueIsZero, crcResidueIsZero]
  have hset : t.bufSlice 0 l = (s.bufSlice 0 l).set k (s.bufByte k ^^^ (1#8 <<< b)) := by
    refine List.ext_getElem (by simp) fun j hj _ => ?_
    rw [bufSlice_getElem, hflip, List.getElem_set, bufSlice_getElem, Nat.zero_add]
    by_cases hjk : j = k
    · rw [if_pos hjk, if_pos hjk.symm, hjk]
    · rw [if_neg hjk, if_neg (Ne.symm hjk)]
  rw [hset] at hresidue
  refine crc16_set_ne (by simpa using hk) ?_ hresidue
  rw [bufSlice_getElem, Nat.zero_add]
  exact xor_bit_ne _ hb

end Sys2Proof.Machine
end

section
/-! Host programs (30_encoding.md R72, R73): the expansions of the pseudo-instructions, and what each line does to the
block. -/
namespace Sys2Proof.Machine

/-! ## Pseudo-instructions -/

/-- The `k`-th line of an expansion that writes one value per line, from entry `i` on. -/
theorem getElem?_zipIdx_map {α β : Type} (xs : List α) (g : α × Nat → β) {k : Nat} (h : k < xs.length) :
    (xs.zipIdx.map g)[k]? = some (g (xs[k], k)) := by
  simp [h]

/-- Settles O52: each expansion is the list of R73, and a value's line is the one at its place in the list. -/
theorem pseudoInstructionExpansions : Obligations.PseudoInstructionExpansions := by
  refine ⟨fun p hp => ?_, fun _ _ => rfl, fun i bs => ⟨?_, fun k hk => ?_⟩, fun j ws => ⟨?_, fun k hk => ?_⟩,
    fun _ => rfl, rfl⟩
  · have hword : encode p.1 = (cmdOffset, p.2) := by
      revert p hp
      decide
    exact ⟨by rw [HostPseudo.expand, hword]; rfl, fun _ _ => rfl⟩
  · simp [HostPseudo.expand]
  · exact getElem?_zipIdx_map bs _ hk
  · simp [HostPseudo.expand]
  · exact getElem?_zipIdx_map ws _ hk

/-! ## Lines -/

/-- Every access is answered: the bus neither faults nor refuses (R42). -/
theorem step_facing_next (s : State) (a : Access) (rest : List Turn) : ∃ t, step (s.facing a rest) = .next t := by
  by_cases ha : a = .memWrite cmdOffset 0x000000FF#32
  · subst ha
    exact ⟨_, hostTurn_softReset { s with agenda := rest }⟩
  · obtain ⟨r, t, hstep, -⟩ := hostTurn_effect ha { s with agenda := rest }
    exact ⟨t, hstep⟩

/-- A read is answered with a response and a word, mapped or not (R42, R45, R46). -/
theorem step_memRead_response (s : State) (off : Off) (rest : List Turn) :
    ∃ t r d, step (s.facing (.memRead off) rest) = .next t ∧ t.response = some (.read r d) := by
  cases htarget : targetOf off with
  | none => exact ⟨_, _, _, step_error s (.memRead off) rest (.inr htarget), rfl⟩
  | some x => exact ⟨_, _, _, step_read htarget s rest, rfl⟩

/-- The host's access is a step of the block facing it. -/
theorem access_eq_some {y : System} {a : Access} {b : State} (h : step (y.block.facing a y.block.agenda) = .next b) :
    y.access a = some b := by
  unfold System.access
  split
  next b' hb' => exact congrArg some (Host.Outcome.next.inj (hb'.symm.trans h))
  next hfault => cases hfault.symm.trans h
  next hrefused => cases hrefused.symm.trans h

/-- A branch whose label is present goes to the label or to the next line. -/
theorem branch_eq_some {h : HostAgent} {l k : Nat} (hl : h.lines.findIdx? (· == .label l) = some k) (taken : Bool) :
    h.branch taken l = some { h with next := if taken then k else h.next + 1 } := by
  cases taken
  · rfl
  · simp [HostAgent.branch, hl]

/-- Settles O53: WR and RD are one access, which the bus always answers; the other lines leave the block as it is. -/
theorem hostLinesReachBlockByAccess : Obligations.HostLinesReachBlockByAccess := by
  intro y line hline
  refine ⟨?_, ?_, ?_, fun name mask l v k hv hl => ⟨?_, ?_⟩⟩
  · rintro off imm rfl
    obtain ⟨b, hstep⟩ := step_facing_next y.block (.memWrite off imm) y.block.agenda
    exact ⟨b, hstep, by simp [System.hostLine, hline, access_eq_some hstep]⟩
  · rintro off name rfl
    obtain ⟨b, r, d, hstep, hresponse⟩ := step_memRead_response y.block off y.block.agenda
    exact ⟨b, r, d, hstep, hresponse,
      by simp [System.hostLine, hline, access_eq_some hstep, hresponse, readData]⟩
  · rintro l rfl
    simp only [System.hostLine, hline]
  · rintro rfl
    simp only [System.hostLine, hline, hv, branch_eq_some hl, Option.map_some, bne_iff_ne]
  · rintro rfl
    simp only [System.hostLine, hline, hv, branch_eq_some hl, Option.map_some, beq_iff_eq]

end Sys2Proof.Machine
end
